-- ==== Sys2Proof/Word.lean ====
section
/-! DEFINITION. The unsigned word types of the block (spec `00_scope.md` R7: u8, u16, u32; "the block has no
signed quantity"). -/

namespace Sys2Proof

/-- u8: one byte of a buffer (R7). -/
abbrev Byte := BitVec 8

/-- u16: lengths, the checksum, most header fields (R7, R12). -/
abbrev Half := BitVec 16

/-- u32: the two addresses and one descriptor word (R7, R12, R60). -/
abbrev Word := BitVec 32

end Sys2Proof
end

