-- ==== Sys2Proof/Config.lean ====
section
/-! DEFINITION. What is fixed for the machine: the constants of R5, the parameters of R6 with their defaults,
what an unlisted byte reads as, the buffer sizes, and the free values (values the spec leaves unspecified). -/

namespace Sys2Proof.Config

/-! Constants the source fixes (R5). -/

/-- `VERSION`: the only version built and the only one parsed as valid. -/
abbrev version : BitVec 4 := 4
/-- `IHL_BUILD`: header length in 32-bit words of every built header. -/
abbrev ihlBuild : BitVec 4 := 5
/-- `HDR_LEN`: bytes of a built header, least declared header length PARSE accepts. -/
abbrev hdrLen : Nat := 20
/-- `TTL_DEFAULT`: the ttl written when the ttl operand is 0. -/
abbrev ttlDefault : Byte := 64
/-- `FRAG_UNIT`: bytes per unit of fragment-offset. -/
abbrev fragUnit : Nat := 8
/-- `FRAG_OFF_MAX`: largest fragment-offset value. -/
abbrev fragOffMax : Nat := 8191
/-- `TOTAL_LEN_MAX`: largest total-length. -/
abbrev totalLenMax : Nat := 65535

/-- The parameters the spec leaves to whoever builds the block (R6, R19, R22).
DESIGN CHOICE (log 4): they stand in State, so that a claim over all states is a claim over all of them; no step
writes them.  `MTU_MIN` and `ACC_W` are held as their excess over the least value R6 allows, so that R6's
constraints (`MTU_MIN >= 28`, `ACC_W >= 32`) hold of every value of the type. -/
structure Params where
  /-- `TOS_BUILD`: the type-of-service byte of every built header (D7). -/
  tosBuild : Byte
  /-- `MTU_MIN - 28` (D8). -/
  mtuMinExtra : Nat
  /-- `ACC_W - 32` (D30). -/
  accExtra : Nat
deriving DecidableEq, Repr

/-- `MTU_MIN` (R6, R126, D8). -/
def Params.mtuMin (p : Params) : Nat := 28 + p.mtuMinExtra

/-- `ACC_W` (R6, R16, D30). -/
def Params.accW (p : Params) : Nat := 32 + p.accExtra

/-- The parameters at their defaults: `TOS_BUILD = 0x00`, `MTU_MIN = 28` (R6), and `ACC_W = 32`
(DESIGN CHOICE, log 4: R6 names no default width). -/
def Params.default : Params := { tosBuild := 0, mtuMinExtra := 0, accExtra := 0 }

/-- What a byte of a buffer that nothing has written reads as.  DESIGN CHOICE, log 9. -/
abbrev unlisted : Byte := 0

/-- Size in bytes of the fragment buffer FB: the least R30 allows for an unbounded MTU. DESIGN CHOICE, log 10. -/
abbrev fbSize : Nat := 65532

/-- Size in bytes of IN and of OUT at reset: all that a command can address (R30).  DESIGN CHOICE, log 8. -/
abbrev resetBufSize : Nat := 65535

/-- Where a free value goes: a field of RES, of CMD, a transient register, or a byte of FB. -/
inductive Slot where
  | resStatus | resValue | resHdr (i : Nat)
  | resValid | resHasOptions | resCsumOk
  | resVVersion | resVIhl | resVTos | resVTotalLen | resVId | resVRf | resVDf | resVMf | resVFragOff
  | resVTtl | resVProto | resVCsum | resVSrc | resVDst
  | cmdOp | cmdDf | cmdTtl | cmdProto | cmdId | cmdLen | cmdAux | cmdSrc | cmdDst
  | workAcc | workCap | workOff | workN | workMf | workCnt | workFbLen
  | fbByte (a : Nat)
deriving DecidableEq, Repr

/-- A free value of `w` bits: what slot `slot` holds after draw number `draw`, where the spec says "any value"
(R13, R16, R21, R23).  Nothing constrains it (log 24). -/
opaque freeBits : (w : Nat) → (slot : Slot) → (draw : Nat) → BitVec w

end Sys2Proof.Config
end

