-- ==== Sys2Proof/Syntax.lean ====
section
/-! DEFINITION. The syntax: the command descriptor as five words (R60), the operand fields of a command (R12),
and the five commands (R62), one constructor per row of `opcode_table.json`. -/

namespace Sys2Proof

/-- The command descriptor: five 32-bit words, `W0` first (R60). -/
structure Desc where
  w0 : Word
  w1 : Word
  w2 : Word
  w3 : Word
  w4 : Word
deriving DecidableEq, Repr

/-- The operand fields every descriptor carries (R12, R60), used or ignored by the command (R64). -/
structure Operands where
  df : BitVec 1
  ttl : Byte
  proto : Byte
  id : Half
  len : Half
  aux : Half
  src : Word
  dst : Word
deriving DecidableEq, Repr

/-- The five commands (R62). -/
inductive Instr where
  /-- `op = 1`, R82. -/
  | csum (o : Operands)
  /-- `op = 2`, R92. -/
  | build (o : Operands)
  /-- `op = 3`, R95. -/
  | assemble (o : Operands)
  /-- `op = 4`, R110. -/
  | parse (o : Operands)
  /-- `op = 5`, R130. -/
  | frag (o : Operands)
deriving DecidableEq, Repr

/-- The operand fields of a command. -/
def Instr.operands : Instr → Operands
  | .csum o => o
  | .build o => o
  | .assemble o => o
  | .parse o => o
  | .frag o => o

/-- Why a descriptor is illegal (R61, R63). -/
inductive Reject where
  /-- `W0[27:24]` is not 0. -/
  | reservedField0
  /-- `W0[7:0]` is not 0. -/
  | reservedField1
  /-- `W2[15:0]` is not 0. -/
  | reservedField2
  /-- `W0[31:29]` is 0, 6 or 7. -/
  | reservedOp
deriving DecidableEq, Repr

end Sys2Proof
end

