-- ==== Sys2Proof/WellFormed.lean ====
section
/-! DEFINITION. Well-formedness.  A command's operand widths are in its types, so every term of `Instr` encodes;
what can be ill-formed is a DESCRIPTOR (reserved fields and reserved `op` values, R61, R63), and, of a command,
its TEXT: R72's syntax gives each mnemonic the operands it uses and leaves every other field zero. -/

namespace Sys2Proof

/-- `rsv0 = W0[27:24]` is 0 (R60, R63). -/
abbrev Desc.rsv0Zero (d : Desc) : Prop := d.w0.extractLsb' 24 4 = 0
/-- `rsv1 = W0[7:0]` is 0 (R60, R63). -/
abbrev Desc.rsv1Zero (d : Desc) : Prop := d.w0.extractLsb' 0 8 = 0
/-- `rsv2 = W2[15:0]` is 0 (R60, R63). -/
abbrev Desc.rsv2Zero (d : Desc) : Prop := d.w2.extractLsb' 0 16 = 0
/-- `op = W0[31:29]` is one of 1 to 5 (R61). -/
abbrev Desc.opAssigned (d : Desc) : Prop :=
  1 ≤ (d.w0.extractLsb' 29 3).toNat ∧ (d.w0.extractLsb' 29 3).toNat ≤ 5

/-- A descriptor the decoder accepts (R61, R63). -/
abbrev Desc.WellFormed (d : Desc) : Prop :=
  d.rsv0Zero ∧ d.rsv1Zero ∧ d.rsv2Zero ∧ d.opAssigned

/-- A command R72's text syntax can write: the operands it does not use are zero ("omitted operands being
zero").  The block itself runs every command, writable or not (R64). -/
def Instr.writable : Instr → Bool
  | .csum o => o.df == 0 && o.ttl == 0 && o.proto == 0 && o.id == 0 && o.aux == 0 && o.src == 0 && o.dst == 0
  | .build o => o.aux == 0
  | .assemble _ => true
  | .parse o => o.df == 0 && o.ttl == 0 && o.proto == 0 && o.id == 0 && o.aux == 0 && o.src == 0 && o.dst == 0
  | .frag o => o.df == 0

end Sys2Proof
end

