-- ==== Sys2Proof/Decode.lean ====
section
/-! DEFINITION. Decoding of the command descriptor (R60 to R65), total on any five words and rejecting by name;
then the encoder, written from the same table of R60. -/

namespace Sys2Proof

/-! The fields of the descriptor (R60). -/

def Desc.op (d : Desc) : BitVec 3 := d.w0.extractLsb' 29 3
def Desc.df (d : Desc) : BitVec 1 := d.w0.extractLsb' 28 1
def Desc.rsv0 (d : Desc) : BitVec 4 := d.w0.extractLsb' 24 4
def Desc.ttl (d : Desc) : Byte := d.w0.extractLsb' 16 8
def Desc.proto (d : Desc) : Byte := d.w0.extractLsb' 8 8
def Desc.rsv1 (d : Desc) : Byte := d.w0.extractLsb' 0 8
def Desc.id (d : Desc) : Half := d.w1.extractLsb' 16 16
def Desc.len (d : Desc) : Half := d.w1.extractLsb' 0 16
def Desc.aux (d : Desc) : Half := d.w2.extractLsb' 16 16
def Desc.rsv2 (d : Desc) : Half := d.w2.extractLsb' 0 16
def Desc.src (d : Desc) : Word := d.w3
def Desc.dst (d : Desc) : Word := d.w4

/-- The operand fields of a descriptor (R60), each an unsigned immediate copied unchanged. -/
def Desc.operands (d : Desc) : Operands :=
  { df := d.df, ttl := d.ttl, proto := d.proto, id := d.id, len := d.len, aux := d.aux, src := d.src, dst := d.dst }

/-- `DecodeCmd` (R61): a command, or *illegal* with the reason.  The reason's name is the model's: the block
reports `IllegalCommand` whatever it was (R63). -/
def decode (d : Desc) : Except Reject Instr :=
  if d.rsv0 ≠ 0 then .error .reservedField0
  else if d.rsv1 ≠ 0 then .error .reservedField1
  else if d.rsv2 ≠ 0 then .error .reservedField2
  else if d.op = 1 then .ok (.csum d.operands)
  else if d.op = 2 then .ok (.build d.operands)
  else if d.op = 3 then .ok (.assemble d.operands)
  else if d.op = 4 then .ok (.parse d.operands)
  else if d.op = 5 then .ok (.frag d.operands)
  else .error .reservedOp

/-- The operation code of a command (R62). -/
def Instr.op : Instr → BitVec 3
  | .csum _ => 1
  | .build _ => 2
  | .assemble _ => 3
  | .parse _ => 4
  | .frag _ => 5

/-- A descriptor from an operation code and operand fields, reserved fields zero (R60). -/
def Desc.pack (op : BitVec 3) (o : Operands) : Desc :=
  { w0 := op ++ o.df ++ (0 : BitVec 4) ++ o.ttl ++ o.proto ++ (0 : BitVec 8)
    w1 := o.id ++ o.len
    w2 := o.aux ++ (0 : BitVec 16)
    w3 := o.src
    w4 := o.dst }

/-- The descriptor of a command (R60, R62). -/
def encode (i : Instr) : Desc := Desc.pack i.op i.operands

/-- The descriptor of a 160-bit number `{W0, W1, W2, W3, W4}`, `W0` in the highest bits (R60). -/
def Desc.ofBits (b : BitVec 160) : Desc :=
  { w0 := b.extractLsb' 128 32, w1 := b.extractLsb' 96 32, w2 := b.extractLsb' 64 32
    w3 := b.extractLsb' 32 32, w4 := b.extractLsb' 0 32 }

/-- The descriptor as one 160-bit number (R60). -/
def Desc.toBits (d : Desc) : BitVec 160 := d.w0 ++ d.w1 ++ d.w2 ++ d.w3 ++ d.w4

/-- The descriptor whose bits are `w`, numbered as `opcode_table.json` numbers them: bits 159 to 0 of the
160-bit number, so that `op` is bits 159 to 157; every bit above `nbits` is 0 (log 16). -/
def tableDesc (nbits w : Nat) : Desc := Desc.ofBits (BitVec.ofNat 160 (w % 2 ^ nbits))

/-- The command the decoder reads from a word of the opcode table. -/
def decodeTableWord (nbits w : Nat) : Option Instr :=
  match decode (tableDesc nbits w) with
  | .ok i => some i
  | .error _ => none

end Sys2Proof
end

