-- ==== Sys2Proof/Machine/State.lean ====
section
/-! DEFINITION. The state of the machine as plain data: every piece of the inventory R11, the parameters of R6,
and the coming steps of the agents outside the block (R4, R22). -/

namespace Sys2Proof.Machine

/-- The operand registers `CMD.*` (R12): loaded together when a command is accepted. -/
structure Cmd extends Operands where
  op : BitVec 3
deriving DecidableEq, Repr

/-- The result registers `RES.*` (R13), flags included (R14). -/
structure Res where
  done : BitVec 1
  status : BitVec 3
  value : Half
  hdr : Vector Byte 20
  valid : BitVec 1
  hasOptions : BitVec 1
  csumOk : BitVec 1
  vVersion : BitVec 4
  vIhl : BitVec 4
  vTos : Byte
  vTotalLen : Half
  vId : Half
  vRf : BitVec 1
  vDf : BitVec 1
  vMf : BitVec 1
  vFragOff : BitVec 13
  vTtl : Byte
  vProto : Byte
  vCsum : Half
  vSrc : Word
  vDst : Word
deriving DecidableEq, Repr

/-- The phase (R17). -/
inductive Phase where
  | idle
  | run
  | sinkWait
deriving DecidableEq, Repr

/-- The transient registers (R16).  `acc` has `ACC_W` bits, a parameter: it is held as its unsigned value, and
every addition into it is taken modulo `2 ^ ACC_W`. -/
structure Work where
  acc : Nat
  cap : Half
  off : Half
  n : Half
  mf : BitVec 1
  cnt : Half
  fbLen : Half
deriving DecidableEq, Repr

/-- The bytes of one space, as listed cells: addresses strictly rising, no entry equal to the unlisted byte. -/
abbrev Memory := List Host.Cell

/-- The canonical form of a memory. -/
abbrev Memory.wf (m : Memory) : Prop :=
  m.Pairwise (fun c d => c.1 < d.1) ∧ ∀ c ∈ m, c.2 ≠ Config.unlisted

/-- A byte array of a given length, indexed from 0 (R30). -/
structure Buffer where
  size : Nat
  cells : Memory
deriving DecidableEq, Repr

/-- A buffer in canonical form lists no byte outside itself. -/
abbrev Buffer.wf (b : Buffer) : Prop := Memory.wf b.cells ∧ ∀ c ∈ b.cells, c.1 < b.size

/-- A buffer of `n` bytes that nothing has written. -/
abbrev Buffer.fresh (n : Nat) : Buffer := { size := n, cells := [] }

/-- The three byte spaces (R30). -/
inductive Space where
  | input
  | output
  | fragment
deriving DecidableEq, Repr

/-- What REQ may do while the block is idle (R180). -/
inductive ReqStep where
  /-- Present a descriptor (R17). -/
  | present (d : Desc)
  /-- Provide an input buffer with these bytes: `|IN|` is their number (R18, R30). -/
  | fillIn (bytes : List Byte)
  /-- Provide a destination buffer holding these bytes: `|OUT|` is their number (R18, R30). -/
  | provideOut (bytes : List Byte)
deriving DecidableEq, Repr

/-- Reasons the machine stops with a fault. -/
inductive Fault where
  /-- Raised by `MemRead` and `MemWrite` (Machine/Ops.lean) when an access does not lie inside its buffer (R8, R30).
  Safe: the machine stops, and the block never makes such an access (R36, R39). -/
  | outsideBuffer (s : Space)
deriving DecidableEq, Repr

/-- Reasons a launch has no meaning (R9 (c)). -/
inductive Refusal where
  /-- Raised by a command whose input buffer is shorter than `CMD.len` (R36, R175, R176).  Safe: the spec gives
  such a launch no meaning and has a model refuse it. -/
  | inTooShort
  /-- Raised by ASSEMBLE when the destination buffer is shorter than `CMD.aux` (R36, R176).  Safe, likewise. -/
  | outTooShort
  /-- Raised by the dispatch for an instruction that has no meaning yet (none).  Safe. -/
  | notModelled (mnemonic : String)
deriving DecidableEq, Repr

/-- The state of the machine. -/
structure State where
  /-- The parameters of R6. -/
  params : Config.Params
  /-- The operand registers (R12). -/
  cmd : Cmd
  /-- The result registers (R13). -/
  res : Res
  /-- The phase (R17). -/
  phase : Phase
  /-- The transient registers (R16). -/
  work : Work
  /-- The input buffer `IN` (R18). -/
  inBuf : Buffer
  /-- The destination buffer `OUT` (R18). -/
  outBuf : Buffer
  /-- The fragment buffer `FB` (R18, R21); the SINK reads it through `State.readFb`. -/
  fb : Buffer
  /-- REQ's coming steps, oldest first (R4; log 2). -/
  req : List ReqStep
  /-- The SINK's coming answers, oldest first (R131; log 3). -/
  sink : List (BitVec 1)
  /-- The reset line (R170, R171; log 18). -/
  resetIn : Bool
  /-- How many times free values have been drawn (log 24). -/
  draws : Nat
deriving DecidableEq, Repr

/-- All result registers zero: the value the model names for reset where R23 says "unspecified"
(DESIGN CHOICE, log 5); `done` is 0 by R23. -/
def Res.zero : Res :=
  { done := 0, status := 0, value := 0, hdr := Vector.replicate 20 0, valid := 0, hasOptions := 0, csumOk := 0
    vVersion := 0, vIhl := 0, vTos := 0, vTotalLen := 0, vId := 0, vRf := 0, vDf := 0, vMf := 0, vFragOff := 0
    vTtl := 0, vProto := 0, vCsum := 0, vSrc := 0, vDst := 0 }

/-- All operand registers zero (DESIGN CHOICE, log 6). -/
def Cmd.zero : Cmd :=
  { op := 0, df := 0, ttl := 0, proto := 0, id := 0, len := 0, aux := 0, src := 0, dst := 0 }

/-- All transient registers zero (DESIGN CHOICE, log 7). -/
def Work.zero : Work := { acc := 0, cap := 0, off := 0, n := 0, mf := 0, cnt := 0, fbLen := 0 }

/-- The machine right after reset (R23, R170): idle, `RES.done = 0`, no pending sink call; everything R23 calls
unspecified at the value the log names (log 2 to 10, 18, 24). -/
def State.reset : State :=
  { params := Config.Params.default
    cmd := Cmd.zero
    res := Res.zero
    phase := .idle
    work := Work.zero
    inBuf := Buffer.fresh Config.resetBufSize
    outBuf := Buffer.fresh Config.resetBufSize
    fb := Buffer.fresh Config.fbSize
    req := []
    sink := []
    resetIn := false
    draws := 0 }

end Sys2Proof.Machine
end

