-- ==== Sys2Proof/Machine/Ops.lean ====
section
/-! DEFINITION. The named operations over memory and registers, the acceptance of a command, and the ONE
operation that ends a command (a completion or a `raise`, R8, R155, R156), shared by every meaning. -/

namespace Sys2Proof.Machine

/-- The answer of a meaning. -/
abbrev Answer := Host.Outcome State Fault Refusal

/-! ### Bytes of a buffer (R30, R35) -/

/-- The byte at address `a`. -/
def Memory.read : Memory → Nat → Byte
  | [], _ => Config.unlisted
  | (k, v) :: rest, a => if k = a then v else Memory.read rest a

/-- The cells that hold `bs` from address `a` on; a byte equal to the unlisted byte needs no cell. -/
def Memory.cellsAt : Nat → List Byte → Memory
  | _, [] => []
  | a, b :: bs => if b = Config.unlisted then cellsAt (a + 1) bs else (a, b) :: cellsAt (a + 1) bs

/-- `m` with the bytes `bs` stored from address `a` on. -/
def Memory.store (m : Memory) (a : Nat) (bs : List Byte) : Memory :=
  m.filter (fun c => c.1 < a) ++ Memory.cellsAt a bs ++ m.filter (fun c => a + bs.length ≤ c.1)

/-- The byte at index `a` of a buffer. -/
def Buffer.read (b : Buffer) (a : Nat) : Byte := Memory.read b.cells a

/-- `B[a .. a+n-1]` in index order (R7). -/
def Buffer.bytes (b : Buffer) (a n : Nat) : List Byte := (List.range n).map (fun i => b.read (a + i))

/-- The buffer with `bs` written from index `a` on; its length is unchanged. -/
def Buffer.write (b : Buffer) (a : Nat) (bs : List Byte) : Buffer := { b with cells := Memory.store b.cells a bs }

/-- A buffer of exactly these bytes (REQ's, R18). -/
def Buffer.ofBytes (bs : List Byte) : Buffer := { size := bs.length, cells := Memory.cellsAt 0 bs }

/-! ### The block's accesses: IN is read, OUT and FB are written (R30, R35)

Each is `MemRead` or `MemWrite` of R8 with R8's bound `a + n <= |S|`.  Within a launch that R36 allows the bound
always holds (Laws), so the fault is never raised. -/

/-- `MemRead(IN, a, n)` (R8). -/
def readIn (a n : Nat) (s : State) (k : List Byte → Answer) : Answer :=
  if a + n ≤ s.inBuf.size then k (s.inBuf.bytes a n) else .fault (.outsideBuffer .input)

/-- `MemWrite(OUT, a, |bs|, bs)` (R8). -/
def writeOut (a : Nat) (bs : List Byte) (s : State) (k : State → Answer) : Answer :=
  if a + bs.length ≤ s.outBuf.size then k { s with outBuf := s.outBuf.write a bs }
  else .fault (.outsideBuffer .output)

/-- `MemWrite(FB, a, |bs|, bs)` (R8). -/
def writeFb (a : Nat) (bs : List Byte) (s : State) (k : State → Answer) : Answer :=
  if a + bs.length ≤ s.fb.size then k { s with fb := s.fb.write a bs }
  else .fault (.outsideBuffer .fragment)

/-! ### Free values: what a register holds where the spec says "any value" (R13, R16, R23; log 11, 12, 24) -/

open Config in
/-- Result registers that all hold any value, but for `done` (R13 "defined after: always"). -/
def Res.free (done : BitVec 1) (k : Nat) : Res :=
  { done := done
    status := freeBits 3 .resStatus k
    value := freeBits 16 .resValue k
    hdr := Vector.ofFn (fun i : Fin 20 => freeBits 8 (.resHdr i) k)
    valid := freeBits 1 .resValid k
    hasOptions := freeBits 1 .resHasOptions k
    csumOk := freeBits 1 .resCsumOk k
    vVersion := freeBits 4 .resVVersion k
    vIhl := freeBits 4 .resVIhl k
    vTos := freeBits 8 .resVTos k
    vTotalLen := freeBits 16 .resVTotalLen k
    vId := freeBits 16 .resVId k
    vRf := freeBits 1 .resVRf k
    vDf := freeBits 1 .resVDf k
    vMf := freeBits 1 .resVMf k
    vFragOff := freeBits 13 .resVFragOff k
    vTtl := freeBits 8 .resVTtl k
    vProto := freeBits 8 .resVProto k
    vCsum := freeBits 16 .resVCsum k
    vSrc := freeBits 32 .resVSrc k
    vDst := freeBits 32 .resVDst k }

open Config in
/-- Operand registers that hold any value (R23). -/
def Cmd.free (k : Nat) : Cmd :=
  { op := freeBits 3 .cmdOp k, df := freeBits 1 .cmdDf k, ttl := freeBits 8 .cmdTtl k
    proto := freeBits 8 .cmdProto k, id := freeBits 16 .cmdId k, len := freeBits 16 .cmdLen k
    aux := freeBits 16 .cmdAux k, src := freeBits 32 .cmdSrc k, dst := freeBits 32 .cmdDst k }

open Config in
/-- Transient registers that hold any value (R16); `acc` any value of its `w` bits. -/
def Work.free (w : Nat) (k : Nat) : Work :=
  { acc := (freeBits w .workAcc k).toNat, cap := freeBits 16 .workCap k, off := freeBits 16 .workOff k
    n := freeBits 16 .workN k, mf := freeBits 1 .workMf k, cnt := freeBits 16 .workCnt k
    fbLen := freeBits 16 .workFbLen k }

/-- What any agent reads at `FB[a]` (R21): the byte, for the SINK during a sink call and within
`FB[0 .. fb_len-1]`; any value otherwise (log 10). -/
def State.readFb (s : State) (a : Nat) : Byte :=
  if s.phase = .sinkWait ∧ a < s.work.fbLen.toNat then s.fb.read a
  else Config.freeBits 8 (.fbByte a) s.draws

/-- The pending sink call: the bytes `FB[0 .. fb_len-1]` handed to the SINK, if it is being called (R11, R17, R131). -/
def State.sinkCall (s : State) : Option (List Byte) :=
  match s.phase with
  | .sinkWait => some (s.fb.bytes 0 s.work.fbLen.toNat)
  | .idle => none
  | .run => none

/-! ### Status codes (R70) -/

abbrev stOk : BitVec 3 := 0
abbrev stBufferTooSmall : BitVec 3 := 1
abbrev stStructurallyInvalidHeader : BitVec 3 := 2
abbrev stMtuTooSmall : BitVec 3 := 3
abbrev stSinkAborted : BitVec 3 := 4
abbrev stLengthRange : BitVec 3 := 5
abbrev stIllegalCommand : BitVec 3 := 6

/-! ### Acceptance and completion (R17) -/

/-- Acceptance of a command (R12, R17): the operand registers are loaded together, `RES.done <- 0`, the phase
becomes RUN.  The old result is held only "until the next command is accepted" (R13), so every other field of RES
holds any value from here on (log 11). -/
def accept (c : Cmd) (s : State) : State :=
  { s with cmd := c, res := Res.free 0 s.draws, phase := .run, draws := s.draws + 1 }

/-- The result record in which the completing command defines its own fields: `done = 1`, the status, and any
value in every other field (R13, R71). -/
def resultBase (status : BitVec 3) (s : State) : Res := { Res.free 1 s.draws with status := status }

/-- Completion of a command with result record `r` (R17, R155): RES is written, the phase becomes IDLE, the
transient registers hold any value (R16; log 12). A `raise` is this same operation with an error's status. -/
def deliver (r : Res) (s : State) : State :=
  { s with res := r, phase := .idle, work := Work.free s.params.accW s.draws, draws := s.draws + 1 }

/-- A completion that defines `RES.status` and `RES.value` (CSUM, ASSEMBLE, FRAG: R71). -/
def deliverValue (status : BitVec 3) (v : Half) (s : State) : State :=
  deliver { resultBase status s with value := v } s

/-- A completion that defines `RES.status` only (`IllegalCommand`: R71, R152). -/
def deliverStatus (status : BitVec 3) (s : State) : State := deliver (resultBase status s) s

/-- An illegal descriptor is accepted and completes at once with `IllegalCommand`: no buffer is touched, no sink
is called (R61, R152).  The operand registers take the descriptor's fields as at any acceptance (log 14). -/
def illegalCommand (c : Cmd) (s : State) : State := deliverStatus stIllegalCommand (accept c s)

/-- The launch precondition `|IN| >= CMD.len` (R36): without it the command has no meaning and is refused. -/
def needIn (s : State) (k : Answer) : Answer :=
  if s.inBuf.size < s.cmd.len.toNat then .refused .inTooShort else k

/-- The launch precondition `|OUT| >= CMD.aux` (R36). -/
def needOut (s : State) (k : Answer) : Answer :=
  if s.outBuf.size < s.cmd.aux.toNat then .refused .outTooShort else k

/-! ### REQ's steps on its buffers (R18, R42), and reset (R170, R171) -/

/-- REQ provides an input buffer. -/
def reqFillIn (bs : List Byte) (s : State) : State := { s with inBuf := Buffer.ofBytes bs }

/-- REQ provides a destination buffer. -/
def reqProvideOut (bs : List Byte) (s : State) : State := { s with outBuf := Buffer.ofBytes bs }

/-- Reset of the block (R23, R170, R171): idle, `RES.done = 0`, every other register any value, buffers left alone.
A pending sink call is cancelled and its answer, if one arrives, is ignored (log 18). -/
def blockReset (s : State) : State :=
  { s with
    cmd := Cmd.free s.draws
    res := Res.free 0 s.draws
    phase := .idle
    work := Work.free s.params.accW s.draws
    sink := if s.phase = .sinkWait then s.sink.tail else s.sink
    resetIn := false
    draws := s.draws + 1 }

end Sys2Proof.Machine
end

