-- ==== Sys2Proof/Machine/Operands.lean ====
section
/-! DEFINITION. Operand forms and header fields: byte order (R7, R31, R33), the effective ttl (R91), the flags and
fragment-offset word (R52), and the field-by-field encoding and decoding of the header (R50 to R53). -/

namespace Sys2Proof.Machine

/-! ### Byte order (R7, R31): the byte at the lower index is the more significant -/

/-- `be16(B, i)`. -/
def be16 (b : List Byte) (i : Nat) : Half := b.getD i 0 ++ b.getD (i + 1) 0

/-- `be32(B, i)`. -/
def be32 (b : List Byte) (i : Nat) : Word :=
  b.getD i 0 ++ b.getD (i + 1) 0 ++ b.getD (i + 2) 0 ++ b.getD (i + 3) 0

/-- Byte `k` of a 16-bit value as `put16` writes it: `k = 0` is `v[15:8]`, `k = 1` is `v[7:0]`. -/
def byte16 (v : Half) (k : Nat) : Byte := v.extractLsb' (8 * (1 - k)) 8

/-- Byte `k` of a 32-bit value as `put32` writes it: `k = 0` is `v[31:24]`. -/
def byte32 (v : Word) (k : Nat) : Byte := v.extractLsb' (8 * (3 - k)) 8

/-! ### Operand forms -/

/-- The ttl written: 64 when the operand is 0 (R91). -/
def ttlEff (ttl : Byte) : Byte := if ttl = 0 then Config.ttlDefault else ttl

/-- The flags and fragment-offset word `(0 << 15) | (df << 14) | (mf << 13) | frag_off` (R52, R90). -/
def flagsWord (df mf : BitVec 1) (fragOff : BitVec 13) : Half := (0 : BitVec 1) ++ df ++ mf ++ fragOff

/-- `cap = (CMD.aux - 20) & 0xFFF8` (R127), used only when `CMD.aux >= MTU_MIN`. -/
def capacity (mtu : Half) : Half := (mtu - 20) &&& 0xFFF8

/-! ### The header, encode side (R50, R53) -/

/-- The 20 bytes of a header with the given field values and `csum` in the checksum field (R50 to R53, R90). -/
def headerWith (csum : Half) (tos : Byte) (totalLen id : Half) (df mf : BitVec 1) (fragOff : BitVec 13)
    (ttl proto : Byte) (src dst : Word) : Vector Byte 20 :=
  #v[Config.version ++ Config.ihlBuild, tos,
     byte16 totalLen 0, byte16 totalLen 1,
     byte16 id 0, byte16 id 1,
     byte16 (flagsWord df mf fragOff) 0, byte16 (flagsWord df mf fragOff) 1,
     ttl, proto,
     byte16 csum 0, byte16 csum 1,
     byte32 src 0, byte32 src 1, byte32 src 2, byte32 src 3,
     byte32 dst 0, byte32 dst 1, byte32 dst 2, byte32 dst 3]

/-! ### The header, decode side (R51, R53, R110) -/

/-- `version = B[0][7:4]` (R51). -/
def versionOf (b0 : Byte) : BitVec 4 := b0.extractLsb' 4 4

/-- `IHL = B[0][3:0]` (R51). -/
def ihlOf (b0 : Byte) : BitVec 4 := b0.extractLsb' 0 4

/-- The declared header length in bytes, `hlen = 4 * IHL` (R51). -/
def hlenOf (b0 : Byte) : Nat := 4 * (ihlOf b0).toNat

/-- The declared total-length (R53). -/
def totalLenOf (h : List Byte) : Half := be16 h 2

/-- The received header-checksum (R53). -/
def checksumOf (h : List Byte) : Half := be16 h 10

/-- The fourteen view fields of a header, written into a result record (R53, R110). -/
def withView (h : List Byte) (r : Res) : Res :=
  { r with
    vVersion := versionOf (h.getD 0 0)
    vIhl := ihlOf (h.getD 0 0)
    vTos := h.getD 1 0
    vTotalLen := totalLenOf h
    vId := be16 h 4
    vRf := (be16 h 6).extractLsb' 15 1
    vDf := (be16 h 6).extractLsb' 14 1
    vMf := (be16 h 6).extractLsb' 13 1
    vFragOff := (be16 h 6).extractLsb' 0 13
    vTtl := h.getD 8 0
    vProto := h.getD 9 0
    vCsum := checksumOf h
    vSrc := be32 h 12
    vDst := be32 h 16 }

end Sys2Proof.Machine
end

