-- ==== Sys2Proof/Machine/Sum.lean ====
section
/-! DEFINITION. The functions of the Checksum Engine: `Sum16` and `Csum16` (R80, R81, R85), and the shared header
encoder that uses them (R90).  `w` is the accumulator's width `ACC_W`. -/

namespace Sys2Proof.Machine

/-- The word additions of `Sum16` (R80) in a `w`-bit accumulator: big-endian pairs (R32), an odd last byte as the
high byte of a zero-padded word. -/
def sumWords (w : Nat) : Nat → List Byte → Nat
  | acc, [] => acc
  | acc, [b] => (acc + b.toNat * 256) % 2 ^ w
  | acc, b₀ :: b₁ :: rest => sumWords w ((acc + (b₀.toNat * 256 + b₁.toNat)) % 2 ^ w) rest

/-- The fold of `Sum16`: `while (acc >> 16) != 0: acc <- (acc & 0xFFFF) + (acc >> 16)` (R80).  The first argument
bounds the number of rounds; a `w`-bit value needs fewer than `w` (log 21). -/
def foldCarries : Nat → Nat → Nat
  | 0, acc => acc
  | k + 1, acc => if acc / 65536 = 0 then acc else foldCarries k (acc % 65536 + acc / 65536)

/-- The accumulator when `Sum16` returns (R80). -/
def sum16Acc (w : Nat) (b : List Byte) : Nat := foldCarries w (sumWords w 0 b)

/-- `Sum16(B)` (R80): the folded one's-complement sum. -/
def sum16 (w : Nat) (b : List Byte) : Half := BitVec.ofNat 16 (sum16Acc w b)

/-- `Csum16(B) = ~Sum16(B) & 0xFFFF` (R81). -/
def csum16 (w : Nat) (b : List Byte) : Half := ~~~ (sum16 w b)

/-- `EncodeHeader` (R90): the checksum is computed with its field zero, then filled in. -/
def encodeHeader (w : Nat) (tos : Byte) (totalLen id : Half) (df mf : BitVec 1) (fragOff : BitVec 13)
    (ttl proto : Byte) (src dst : Word) : Vector Byte 20 :=
  headerWith (csum16 w (headerWith 0 tos totalLen id df mf fragOff ttl proto src dst).toList)
    tos totalLen id df mf fragOff ttl proto src dst

end Sys2Proof.Machine
end

