-- ==== Sys2Proof/Machine/Checksum.lean ====
section
/-! DEFINITION. The meaning of CSUM (spec `40_checksum.md`). -/

namespace Sys2Proof.Machine

/-- CSUM (R82): `RES.value <- Csum16(IN[0 .. CMD.len-1])`, status OK. -/
def execCsum (o : Operands) (s : State) : Answer :=
  let s := accept { o with op := 1 } s
  needIn s <|
  readIn 0 o.len.toNat s fun b =>
  .next (deliverValue stOk (csum16 s.params.accW b) s)

end Sys2Proof.Machine
end

