-- ==== Sys2Proof/Machine/Fragmenter.lean ====
section
/-! DEFINITION. The meaning of FRAG (spec `43_fragmenter.md`): the command itself, the loop's next round
(`fragNext`), and the SINK's answer (`fragAnswer`), the three steps of a fragmentation run (R17, R130). -/

namespace Sys2Proof.Machine

/-- The length of the slice at payload offset `off`: `min(cap, P - off)` (R130). -/
def sliceLen (cap off len : Nat) : Nat := min cap (len - off)

/-- More payload remains after the slice (R130). -/
def sliceMf (off n len : Nat) : BitVec 1 := BitVec.ofBool (decide (off + n < len))

/-- The header of the fragment whose slice is `n` bytes at offset `off`, with checksum field `csum` (R135). -/
def fragHeaderWith (csum : Half) (p : Config.Params) (c : Cmd) (off n : Nat) : Vector Byte 20 :=
  headerWith csum p.tosBuild (BitVec.ofNat 16 (Config.hdrLen + n)) c.id 0 (sliceMf off n c.len.toNat)
    (BitVec.ofNat 13 (off / Config.fragUnit)) (ttlEff c.ttl) c.proto c.src c.dst

/-- The header of that fragment (R130, R135). -/
def fragHeader (p : Config.Params) (c : Cmd) (off n : Nat) : Vector Byte 20 :=
  encodeHeader p.accW p.tosBuild (BitVec.ofNat 16 (Config.hdrLen + n)) c.id 0 (sliceMf off n c.len.toNat)
    (BitVec.ofNat 13 (off / Config.fragUnit)) (ttlEff c.ttl) c.proto c.src c.dst

/-- The sink call (R131): with the fragment complete in FB, the block counts it and waits for the answer.
`acc` is left as the header's checksum computation leaves it (log 12). -/
def callSink (off n : Nat) (s : State) : State :=
  { s with
    phase := .sinkWait
    work :=
      { s.work with
        acc := sum16Acc s.params.accW (fragHeaderWith 0 s.params s.cmd off n).toList
        n := BitVec.ofNat 16 n
        mf := sliceMf off n s.cmd.len.toNat
        fbLen := BitVec.ofNat 16 (Config.hdrLen + n)
        cnt := s.work.cnt + 1 } }

/-- One round of the loop: the fragment at `off` is written into FB and handed to the SINK (R130). -/
def fragPrepare (s : State) : Answer :=
  let off := s.work.off.toNat
  let n := sliceLen s.work.cap.toNat off s.cmd.len.toNat
  readIn off n s fun payload =>
  writeFb 0 (fragHeader s.params s.cmd off n).toList s fun s =>
  writeFb Config.hdrLen payload s fun s =>
  .next (callSink off n s)

/-- The head of the loop `while off < P` (R130): another fragment, or completion with the count.  The launch
precondition is looked at again, since R175 has a launch refused whose input buffer changed under it (log 15). -/
def fragNext (s : State) : Answer :=
  needIn s <|
  if s.work.off.toNat < s.cmd.len.toNat then fragPrepare s
  else .next (deliverValue stOk s.work.cnt s)

/-- The SINK's answer (R131, R132): non-zero ends the run with `SinkAborted` and the number of calls made; zero
moves `off` past the slice and the block runs on.  Either way the fragment buffer is released: its bytes are
unspecified from here on (R21, R138; log 10). -/
def fragAnswer (rc : BitVec 1) (s : State) : State :=
  if rc ≠ 0 then deliverValue stSinkAborted s.work.cnt s
  else { s with phase := .run, work := { s.work with off := s.work.off + s.work.n }, draws := s.draws + 1 }

/-- FRAG (R126, R127, R130): the MTU floor first, then the capacity and the loop. -/
def execFrag (o : Operands) (s : State) : Answer :=
  let s := accept { o with op := 5 } s
  needIn s <|
  if o.aux.toNat < s.params.mtuMin then .next (deliverValue stMtuTooSmall 0 s)
  else fragNext { s with work := { s.work with cap := capacity o.aux, off := 0, cnt := 0 } }

end Sys2Proof.Machine
end

