-- ==== Sys2Proof/Machine/HeaderBuild.lean ====
section
/-! DEFINITION. The meanings of BUILD and ASSEMBLE (spec `41_header_build.md`). -/

namespace Sys2Proof.Machine

/-- The header BUILD and ASSEMBLE write over a given total length: `mf` and `frag_off` zero (R92, R95). -/
def unfragmentedHeader (p : Config.Params) (o : Operands) (totalLen : Half) : Vector Byte 20 :=
  encodeHeader p.accW p.tosBuild totalLen o.id o.df 0 0 (ttlEff o.ttl) o.proto o.src o.dst

/-- BUILD (R92, R93): the 20-byte header in `RES.hdr`; the total length is written as given. -/
def execBuild (o : Operands) (s : State) : Answer :=
  let s := accept { o with op := 2 } s
  .next (deliver { resultBase stOk s with hdr := unfragmentedHeader s.params o o.len } s)

/-- ASSEMBLE (R95 to R97): header and payload into OUT, or LengthRange, or BufferTooSmall. -/
def execAssemble (o : Operands) (s : State) : Answer :=
  let s := accept { o with op := 3 } s
  needIn s <| needOut s <|
  let total := Config.hdrLen + o.len.toNat
  if total > Config.totalLenMax then .next (deliverValue stLengthRange 0 s)
  else if o.aux.toNat < total then .next (deliverValue stBufferTooSmall 0 s)
  else
    readIn 0 o.len.toNat s fun payload =>
    writeOut Config.hdrLen payload s fun s =>
    writeOut 0 (unfragmentedHeader s.params o (BitVec.ofNat 16 total)).toList s fun s =>
    .next (deliverValue stOk (BitVec.ofNat 16 total) s)

end Sys2Proof.Machine
end

