-- ==== Sys2Proof/Machine/Flags.lean ====
section
/-! DEFINITION. The flag computations: PARSE's three independent facts (R14, R112, R114, R115). -/

namespace Sys2Proof.Machine

/-- The part of structural validity decided on byte 0 alone: `version == 4` and `20 <= hlen <= L` (R110, R112). -/
def byte0Valid (b0 : Byte) (len : Nat) : Bool :=
  versionOf b0 == Config.version && Config.hdrLen ≤ hlenOf b0 && hlenOf b0 ≤ len

/-- The part decided on the total-length: `hlen <= total_len <= L` (R110, R112). -/
def lengthsValid (hlen totalLen len : Nat) : Bool := hlen ≤ totalLen && totalLen ≤ len

/-- Fact (b), `has_options`: `hlen > 20` (R114). -/
def hasOptionsFlag (hlen : Nat) : BitVec 1 := BitVec.ofBool (decide (hlen > Config.hdrLen))

/-- A copy of the header with its checksum field taken as zero (R110, R115). -/
def zeroChecksum (h : List Byte) : List Byte := (h.set 10 0).set 11 0

/-- Fact (c), `csum_ok`: the zero-filled recomputation over the whole declared header equals the received
checksum (R115, D11, D12; log 19). -/
def csumOkFlag (w : Nat) (h : List Byte) : BitVec 1 :=
  BitVec.ofBool (csum16 w (zeroChecksum h) == checksumOf h)

end Sys2Proof.Machine
end

