-- ==== Sys2Proof/Machine/HeaderParse.lean ====
section
/-! DEFINITION. The meaning of PARSE (spec `42_header_parse.md`). -/

namespace Sys2Proof.Machine

/-- The completion with `StructurallyInvalidHeader`: `RES.valid = 0` and nothing else defined (R71, R116). -/
def parseInvalid (s : State) : State :=
  deliver { resultBase stStructurallyInvalidHeader s with valid := 0 } s

/-- The completion with `valid = 1`: the view, `has_options` and `csum_ok` (R110, R116). -/
def parseValid (h : List Byte) (s : State) : State :=
  deliver
    { withView h (resultBase stOk s) with
      valid := 1
      hasOptions := hasOptionsFlag (hlenOf (h.getD 0 0))
      csumOk := csumOkFlag s.params.accW h }
    s

/-- PARSE (R110): nothing is read when `L < 20` (R111); byte 0 is tested before the rest of the header is read,
and nothing past `hlen` is read (R37, R39, R117). -/
def execParse (o : Operands) (s : State) : Answer :=
  let s := accept { o with op := 4 } s
  needIn s <|
  let len := o.len.toNat
  if len < Config.hdrLen then .next (parseInvalid s)
  else
    readIn 0 1 s fun first =>
    let b0 := first.headD 0
    if ¬ byte0Valid b0 len then .next (parseInvalid s)
    else
      readIn 0 (hlenOf b0) s fun h =>
      if ¬ lengthsValid (hlenOf b0) (totalLenOf h).toNat len then .next (parseInvalid s)
      else .next (parseValid h s)

end Sys2Proof.Machine
end

