-- ==== Sys2Proof/Machine/Dispatch.lean ====
section
/-! DEFINITION. One arm per command, each a direct call of its meaning. -/

namespace Sys2Proof.Machine

-- The five commands (R62), in the table's order.
def exec (i : Instr) (s : State) : Host.Outcome State Fault Refusal :=
  match i with
  | .csum o => Sys2Proof.Machine.execCsum o s
  | .build o => Sys2Proof.Machine.execBuild o s
  | .assemble o => Sys2Proof.Machine.execAssemble o s
  | .parse o => Sys2Proof.Machine.execParse o s
  | .frag o => Sys2Proof.Machine.execFrag o s

end Sys2Proof.Machine
end

