-- ==== Sys2Proof/Machine/Step.lean ====
section
/-! DEFINITION. One step of the machine (R4, R17, R42; log 1): the reset line, else by phase: REQ's next step while
IDLE, the block's next fragment or completion in RUN, the SINK's answer in SINK_WAIT. -/

namespace Sys2Proof.Machine

/-- A descriptor is accepted: it is sampled once, decoded, and the command runs (R17, R45, R61), or an illegal one
completes at once (R152). -/
def present (d : Desc) (s : State) : Host.Outcome State Fault Refusal :=
  match decode d with
  | .ok i => exec i s
  | .error _ => .next (illegalCommand { d.operands with op := d.op } s)

/-- REQ's next step, which can be taken only while the block is IDLE (R17, R42, R175, R178); with nothing to do,
REQ leaves the block idle. -/
def stepIdle (s : State) : Host.Outcome State Fault Refusal :=
  match s.req with
  | [] => .next s
  | .fillIn bs :: rest => .next (reqFillIn bs { s with req := rest })
  | .provideOut bs :: rest => .next (reqProvideOut bs { s with req := rest })
  | .present d :: rest => present d { s with req := rest }

/-- The SINK's answer, which alone leaves SINK_WAIT (R17); a silent SINK leaves the block waiting (R133). -/
def stepSinkWait (s : State) : Host.Outcome State Fault Refusal :=
  match s.sink with
  | [] => .next s
  | rc :: rest => .next (fragAnswer rc { s with sink := rest })

/-- One step. -/
def step (s : State) : Host.Outcome State Fault Refusal :=
  if s.resetIn then .next (blockReset s)
  else
    match s.phase with
    | .idle => stepIdle s
    | .run => fragNext s
    | .sinkWait => stepSinkWait s

/-- `s` with the command of a table word about to be presented: the block idle, the reset line low, and the
descriptor first among REQ's coming steps (log 16, 17). -/
def State.withFetchWord (s : State) (nbits w : Nat) : State :=
  { s with phase := .idle, resetIn := false, req := .present (tableDesc nbits w) :: s.req }

end Sys2Proof.Machine
end

