-- ==== Sys2Proof/Safety.lean ====
section
/-! DEFINITION. The terms claims are stated in: a completed command, the launches that have a meaning, the
machine's invariant, the headers the block builds, and the fragments a run hands to the SINK. -/

namespace Sys2Proof.Machine

/-- A command has completed with this status (R9 (a), R17): idle, a result present. -/
def Completed (t : State) (status : BitVec 3) : Prop :=
  t.phase = .idle ∧ t.res.done = 1 ∧ t.res.status = status

/-- The launch precondition of R36: REQ's buffers are at least as long as the command says. -/
def Launchable (i : Instr) (s : State) : Prop :=
  match i with
  | .csum o => o.len.toNat ≤ s.inBuf.size
  | .build _ => True
  | .assemble o => o.len.toNat ≤ s.inBuf.size ∧ o.aux.toNat ≤ s.outBuf.size
  | .parse o => o.len.toNat ≤ s.inBuf.size
  | .frag o => o.len.toNat ≤ s.inBuf.size

/-- What no command touches: the parameters, the reset line, and the coming steps of REQ and the SINK. -/
def KeepsOutside (s t : State) : Prop :=
  t.params = s.params ∧ t.resetIn = s.resetIn ∧ t.req = s.req ∧ t.sink = s.sink

/-- Every byte of a buffer reads as before, and its length is as before. -/
def SameBytes (b b' : Buffer) : Prop := b'.size = b.size ∧ ∀ a, b'.read a = b.read a

/-- Structural validity of the first `L` bytes of a buffer, as R112 writes it. -/
def StructurallyValid (b : Buffer) (L : Nat) : Prop :=
  L ≥ 20 ∧ (b.read 0).toNat / 16 = 4
    ∧ 20 ≤ 4 * ((b.read 0).toNat % 16) ∧ 4 * ((b.read 0).toNat % 16) ≤ L
    ∧ 4 * ((b.read 0).toNat % 16) ≤ (b.read 2).toNat * 256 + (b.read 3).toNat
    ∧ (b.read 2).toNat * 256 + (b.read 3).toNat ≤ L

/-- The fields of a 20-byte header `h` as R50 to R53 lay them out, byte by byte: version 4 and IHL 5 in byte 0,
multi-byte fields with the more significant byte first, the reserved flag 0, and the checksum that is right for
the other bytes (R90). -/
structure HeaderFields (w : Nat) (h : List Byte) (tos : Byte) (totalLen : Nat) (id : Half) (df mf : Bool)
    (fragOff : Nat) (ttl proto : Byte) (src dst : Word) : Prop where
  length : h.length = 20
  byte0 : h.getD 0 0 = 0x45
  tos : h.getD 1 0 = tos
  totalLen : (h.getD 2 0).toNat * 256 + (h.getD 3 0).toNat = totalLen
  id : (h.getD 4 0).toNat * 256 + (h.getD 5 0).toNat = id.toNat
  flags : (h.getD 6 0).toNat * 256 + (h.getD 7 0).toNat = df.toNat * 2 ^ 14 + mf.toNat * 2 ^ 13 + fragOff
  fragOff : fragOff ≤ 8191
  ttl : h.getD 8 0 = ttl
  proto : h.getD 9 0 = proto
  src : (h.getD 12 0).toNat * 2 ^ 24 + (h.getD 13 0).toNat * 2 ^ 16 + (h.getD 14 0).toNat * 2 ^ 8
    + (h.getD 15 0).toNat = src.toNat
  dst : (h.getD 16 0).toNat * 2 ^ 24 + (h.getD 17 0).toNat * 2 ^ 16 + (h.getD 18 0).toNat * 2 ^ 8
    + (h.getD 19 0).toNat = dst.toNat
  checksum : (h.getD 10 0).toNat * 256 + (h.getD 11 0).toNat = (csum16 w ((h.set 10 0).set 11 0)).toNat

/-- Fragment number `i` (counted from 0) of the payload `IN[0 .. P-1]` for the command held in `c`: a header with
R135's fields, then the slice. -/
structure IsFragment (p : Config.Params) (c : Cmd) (b : Buffer) (i : Nat) (f : List Byte) : Prop where
  header : HeaderFields p.accW (f.take 20) p.tosBuild
    (20 + min (8 * ((c.aux.toNat - 20) / 8)) (c.len.toNat - i * (8 * ((c.aux.toNat - 20) / 8))))
    c.id false (decide ((i + 1) * (8 * ((c.aux.toNat - 20) / 8)) < c.len.toNat))
    (i * (8 * ((c.aux.toNat - 20) / 8)) / 8)
    (if c.ttl = 0 then 64 else c.ttl) c.proto c.src c.dst
  payload : f.drop 20 = b.bytes (i * (8 * ((c.aux.toNat - 20) / 8)))
    (min (8 * ((c.aux.toNat - 20) / 8)) (c.len.toNat - i * (8 * ((c.aux.toNat - 20) / 8))))

/-- The number of fragments, `ceil(P / cap)` (R128, R134). -/
def fragCount (len mtu : Nat) : Nat := (len + 8 * ((mtu - 20) / 8) - 1) / (8 * ((mtu - 20) / 8))

/-- What holds of a fragmentation run between steps, while it is running (R12, R16, R17, R130): FRAG is the
command, its MTU passed the floor, `cap` is the capacity, no result is present, and the launch is a good one. -/
structure FragRunning (s : State) : Prop where
  op : s.cmd.op = 5
  mtu : s.params.mtuMin ≤ s.cmd.aux.toNat
  cap : s.work.cap = capacity s.cmd.aux
  busy : s.res.done = 0
  input : s.cmd.len.toNat ≤ s.inBuf.size

/-- At the head of the loop between steps: `cnt` calls were made and answered 0, the last of them for a slice that
was not empty, and `off` is where their slices end. -/
structure AtLoopHead (s : State) : Prop extends FragRunning s where
  counted : 1 ≤ s.work.cnt.toNat
  last : (s.work.cnt.toNat - 1) * s.work.cap.toNat < s.cmd.len.toNat
  off : s.work.off.toNat = min (s.work.cnt.toNat * s.work.cap.toNat) s.cmd.len.toNat

/-- During a sink call (R131, R135, R136, R138): the call is number `cnt`, `off` is a multiple of the capacity and
so of 8, the slice is not empty and lies in the payload, and FB holds exactly this fragment. -/
structure InSinkCall (s : State) : Prop extends FragRunning s where
  counted : 1 ≤ s.work.cnt.toNat
  off : s.work.off.toNat = (s.work.cnt.toNat - 1) * s.work.cap.toNat
  left : s.work.off.toNat < s.cmd.len.toNat
  slice : s.work.n.toNat = sliceLen s.work.cap.toNat s.work.off.toNat s.cmd.len.toNat
  mf : s.work.mf = sliceMf s.work.off.toNat s.work.n.toNat s.cmd.len.toNat
  fbLen : s.work.fbLen.toNat = 20 + s.work.n.toNat
  handed : s.fb.bytes 0 s.work.fbLen.toNat =
    (fragHeader s.params s.cmd s.work.off.toNat s.work.n.toNat).toList
      ++ s.inBuf.bytes s.work.off.toNat s.work.n.toNat

/-- The machine's invariant. -/
structure Inv (s : State) : Prop where
  /-- The three buffers are in canonical form. -/
  input : s.inBuf.wf
  output : s.outBuf.wf
  fragment : s.fb.wf
  /-- FB can hold the longest fragment (R30). -/
  fbSize : 65532 ≤ s.fb.size
  /-- `acc` is a value of `ACC_W` bits (R16). -/
  acc : s.work.acc < 2 ^ s.params.accW
  /-- A result is present only while idle (R17). -/
  done : s.res.done = 1 → s.phase = .idle
  /-- Status 7 is never produced (R70, U22). -/
  status : s.res.done = 1 → s.res.status ≠ 7
  /-- Only FRAG is ever found running between steps. -/
  run : s.phase = .run → AtLoopHead s
  call : s.phase = .sinkWait → InSinkCall s

/-- The fragments handed to the SINK in the next `k` steps, in order. -/
def handedOver : Nat → State → List (List Byte)
  | 0, _ => []
  | k + 1, s =>
    match step s with
    | .next t =>
      (if s.phase = .sinkWait then [] else t.sinkCall.toList) ++ handedOver k t
    | .fault _ => []
    | .refused _ => []

/-- The sum of a byte sequence's 16-bit words, exactly: byte `i` counts 256-fold when `i` is even and once when it
is odd (R32, R80). -/
def wordTotal (b : List Byte) : Nat :=
  ((List.range b.length).map fun i => (b.getD i 0).toNat * (if i % 2 = 0 then 256 else 1)).sum

/-- Two completions of a command agree on every result field R71 defines for it. -/
def SameResult (i : Instr) (t t' : State) : Prop :=
  t'.res.done = t.res.done ∧ t'.res.status = t.res.status ∧
    match i with
    | .csum _ => t'.res.value = t.res.value
    | .build _ => t'.res.hdr = t.res.hdr
    | .assemble _ => t'.res.value = t.res.value
    | .parse _ =>
      t'.res.valid = t.res.valid ∧
        (t.res.valid = 1 →
          t'.res.hasOptions = t.res.hasOptions ∧ t'.res.csumOk = t.res.csumOk
            ∧ t'.res.vVersion = t.res.vVersion ∧ t'.res.vIhl = t.res.vIhl ∧ t'.res.vTos = t.res.vTos
            ∧ t'.res.vTotalLen = t.res.vTotalLen ∧ t'.res.vId = t.res.vId ∧ t'.res.vRf = t.res.vRf
            ∧ t'.res.vDf = t.res.vDf ∧ t'.res.vMf = t.res.vMf ∧ t'.res.vFragOff = t.res.vFragOff
            ∧ t'.res.vTtl = t.res.vTtl ∧ t'.res.vProto = t.res.vProto ∧ t'.res.vCsum = t.res.vCsum
            ∧ t'.res.vSrc = t.res.vSrc ∧ t'.res.vDst = t.res.vDst)
    | .frag _ => t'.res.value = t.res.value

/-- A step may read these bytes of `IN` (R37), for the command it starts. -/
def MayRead (i : Instr) (s : State) (a : Nat) : Prop :=
  match i with
  | .csum o => a < o.len.toNat
  | .build _ => False
  | .assemble o => 20 + o.len.toNat ≤ 65535 ∧ 20 + o.len.toNat ≤ o.aux.toNat ∧ a < o.len.toNat
  | .parse o =>
    20 ≤ o.len.toNat ∧
      (a = 0 ∨ ((s.inBuf.read 0).toNat / 16 = 4 ∧ 20 ≤ 4 * ((s.inBuf.read 0).toNat % 16)
        ∧ 4 * ((s.inBuf.read 0).toNat % 16) ≤ o.len.toNat ∧ a < 4 * ((s.inBuf.read 0).toNat % 16)))
  | .frag o =>
    s.params.mtuMin ≤ o.aux.toNat ∧ a < min (8 * ((o.aux.toNat - 20) / 8)) o.len.toNat

end Sys2Proof.Machine
end

