-- ==== Sys2Proof/Certificates/Slice0/Obligations.lean ====
section
/-! DEFINITION. The statements for the provers, in the order of the spec's files. -/

open Sys2Proof Sys2Proof.Machine

/-! ## Encoding (`30_encoding.md` part 2) -/

/-- Decoding the descriptor of a command gives the command back, every operand field with it (R60 to R62). -/
def Obligations.DecodeUndoesEncode : Prop :=
  ∀ i : Instr, decode (encode i) = .ok i

/-- A legal descriptor is the descriptor of the command it decodes to: no bit of it is lost (R60, R61). -/
def Obligations.EncodeUndoesDecode : Prop :=
  ∀ (d : Desc) (i : Instr), decode d = .ok i → encode i = d

/-- R61: decoding is total, and yields a command exactly for a descriptor whose reserved fields are zero and whose
`op` is 1 to 5; the command has that `op`, and its fields are the bits R60 names. -/
def Obligations.DecoderAcceptsExactlyLegalDescriptors : Prop :=
  ∀ d : Desc,
    (d.WellFormed →
      ∃ i, decode d = .ok i ∧ i.op = d.w0.extractLsb' 29 3
        ∧ i.operands =
          { df := d.w0.extractLsb' 28 1, ttl := d.w0.extractLsb' 16 8, proto := d.w0.extractLsb' 8 8
            id := d.w1.extractLsb' 16 16, len := d.w1.extractLsb' 0 16, aux := d.w2.extractLsb' 16 16
            src := d.w3, dst := d.w4 })
      ∧ (¬ d.WellFormed → ∃ r, decode d = .error r)

/-- Words written out from R60 and R62 (vectors B3, A1, F14, X4, X6 and the five rows) decode as they read. -/
def Obligations.WrittenDescriptorsDecode : Prop :=
  decode ⟨0x50401100, 0x00000073, 0x00000000, 0xC0A80001, 0xC0A800C7⟩
      = .ok (.build ⟨1, 64, 17, 0, 115, 0, 0xC0A80001, 0xC0A800C7⟩)
    ∧ decode ⟨0x70001100, 0x00420005, 0x00400000, 0xC0000201, 0xC6336407⟩
      = .ok (.assemble ⟨1, 0, 17, 0x42, 5, 64, 0xC0000201, 0xC6336407⟩)
    ∧ decode ⟨0xB0071100, 0xBEEF000A, 0x002B0000, 0xC0000201, 0xC6336407⟩
      = .ok (.frag ⟨1, 7, 17, 0xBEEF, 10, 43, 0xC0000201, 0xC6336407⟩)
    ∧ decode ⟨0x21000000, 8, 0, 0, 0⟩ = .error .reservedField0
    ∧ decode ⟨0x20000000, 8, 1, 0, 0⟩ = .error .reservedField2
    ∧ decodeTableWord 160 0x2000000000000000000000000000000000000000 = some (.csum ⟨0, 0, 0, 0, 0, 0, 0, 0⟩)
    ∧ decodeTableWord 160 0x8000000000000014000000000000000000000000 = some (.parse ⟨0, 0, 0, 0, 20, 0, 0, 0⟩)

/-- R63, R152: an idle block to which an illegal descriptor is presented accepts it and completes at once with
`IllegalCommand`; whatever the buffers hold, none is read or written, and the SINK is not called. -/
def Obligations.IllegalDescriptorCompletesAtOnce : Prop :=
  ∀ (s : State) (d : Desc) (rest : List ReqStep),
    s.phase = .idle → s.resetIn = false → s.req = .present d :: rest →
    (d.w0.extractLsb' 29 3 = 0 ∨ d.w0.extractLsb' 29 3 = 6 ∨ d.w0.extractLsb' 29 3 = 7
      ∨ d.w0.extractLsb' 24 4 ≠ 0 ∨ d.w0.extractLsb' 0 8 ≠ 0 ∨ d.w2.extractLsb' 0 16 ≠ 0) →
    ∃ t, step s = .next t ∧ Completed t stIllegalCommand ∧ t.sinkCall = none
      ∧ t.req = rest ∧ t.sink = s.sink ∧ t.params = s.params ∧ t.resetIn = false
      ∧ ∀ bi bo bf : Buffer,
          step { s with inBuf := bi, outBuf := bo, fb := bf } = .next { t with inBuf := bi, outBuf := bo, fb := bf }

/-- R64: fields a command does not use are neither checked nor reflected in any output.  Only the operand registers
themselves differ (that they still hold the command after its completion is the model's choice, log 13), and for FRAG
that holds to the end of its run, every fragment having `df = 0` (bit 6 of byte 6). -/
def Obligations.IgnoredFieldsDoNotMatter : Prop :=
  (∀ (s t : State) (o o' : Operands), o'.len = o.len →
    (exec (.csum o) s = .next t → exec (.csum o') s = .next { t with cmd := { o' with op := 1 } })
      ∧ (exec (.parse o) s = .next t → exec (.parse o') s = .next { t with cmd := { o' with op := 4 } }))
    ∧ (∀ (s t : State) (o : Operands) (a : Half), exec (.build o) s = .next t →
      exec (.build { o with aux := a }) s = .next { t with cmd := { t.cmd with aux := a } })
    ∧ (∀ (s t : State) (o : Operands) (d : BitVec 1), exec (.frag o) s = .next t →
      exec (.frag { o with df := d }) s = .next { t with cmd := { t.cmd with df := d } })
    ∧ (∀ (s t : State) (d : BitVec 1), s.phase ≠ .idle → s.resetIn = false → step s = .next t →
      step { s with cmd := { s.cmd with df := d } } = .next { t with cmd := { t.cmd with df := d } })
    ∧ (∀ (s t : State) (o : Operands), exec (.frag o) s = .next t → t.phase = .sinkWait →
      (t.fb.read 6).toNat / 64 % 2 = 0)
    ∧ ∀ s t : State, s.phase = .run → s.resetIn = false → step s = .next t → t.phase = .sinkWait →
      (t.fb.read 6).toNat / 64 % 2 = 0

/-! ## The step, the agents and the phases (`10_state.md`, `70_reset_and_hazards.md`) -/

/-- An idle block to which REQ presents the descriptor of a command runs exactly that command: the step is `exec` of
it, with the descriptor taken off REQ's list (R17, R45, R61; log 1, 2). -/
def Obligations.StepRunsPresentedCommand : Prop :=
  ∀ (s : State) (d : Desc) (i : Instr) (rest : List ReqStep),
    s.phase = .idle → s.resetIn = false → s.req = .present d :: rest → decode d = .ok i →
    step s = exec i { s with req := rest }

/-- While a command runs, nothing REQ has coming is taken: no second command is accepted (R17, R178), the operand
registers are constant until the command completes (R12) and keep the command in the step that completes it (the
model's choice, log 13), and the buffers IN and OUT and the parameters stay as they are (R175). -/
def Obligations.BusyBlockAcceptsNothing : Prop :=
  ∀ s t : State, s.phase ≠ .idle → s.resetIn = false → step s = .next t →
    t.req = s.req ∧ t.cmd = s.cmd ∧ t.inBuf = s.inBuf ∧ t.outBuf = s.outBuf ∧ t.params = s.params

/-- R133: a block whose SINK never answers stays in SINK_WAIT for ever, delivers no result and accepts no command;
only an answer or a reset leaves SINK_WAIT. -/
def Obligations.SilentSinkHangsTheBlock : Prop :=
  (∀ (s : State) (k : Nat), s.phase = .sinkWait → s.sink = [] → s.resetIn = false →
    Host.Core.run Sys2Proof.core k s = .next s)
    ∧ (∀ s t : State, s.phase = .sinkWait → step s = .next t → t ≠ s → s.resetIn = true ∨ s.sink ≠ [])
    ∧ (∀ s : State, s.phase = .sinkWait → s.resetIn = true →
      ∃ t, step s = .next t ∧ t.phase = .idle ∧ t.res.done = 0)

/-- The phase table of R17, with the answer and what it decides taken in one step (log 22); and a result is held
until the next command is accepted (R13, R157). -/
def Obligations.PhasesChangeOnlyAsTheTableSays : Prop :=
  ∀ s t : State, s.resetIn = false → step s = .next t →
    (s.phase = .idle → (∀ d rest, s.req ≠ .present d :: rest) →
        t.phase = .idle ∧ t.res = s.res ∧ t.sink = s.sink)
      ∧ (s.phase = .run →
        (t.phase = .idle ∧ t.res.done = 1 ∨ t.phase = .sinkWait ∧ t.res = s.res) ∧ t.sink = s.sink)
      ∧ (s.phase = .sinkWait →
        t = s ∧ s.sink = []
          ∨ s.sink = 0 :: t.sink ∧ t.phase = .run ∧ t.res = s.res
          ∨ s.sink = 1 :: t.sink ∧ Completed t stSinkAborted)

/-- REQ fills IN and provides OUT only while the block is idle (its steps as a list are the model's, log 2), and the
buffer then holds exactly REQ's bytes; no register of the block changes (R18, R22, R42). -/
def Obligations.ReqProvidesBuffersWhileIdle : Prop :=
  ∀ (s : State) (bs : List Byte) (rest : List ReqStep), s.phase = .idle → s.resetIn = false →
    (s.req = .fillIn bs :: rest →
      ∃ b, step s = .next { s with req := rest, inBuf := b } ∧ b.size = bs.length
        ∧ ∀ a, a < bs.length → b.read a = bs.getD a 0)
      ∧ (s.req = .provideOut bs :: rest →
        ∃ b, step s = .next { s with req := rest, outBuf := b } ∧ b.size = bs.length
          ∧ ∀ a, a < bs.length → b.read a = bs.getD a 0)

/-- Each buffer has one writer (R18, R30, R38): IN changes only when REQ fills it, OUT only when REQ provides it or
ASSEMBLE runs, FB only when FRAG starts or goes on. -/
def Obligations.BuffersHaveOneWriter : Prop :=
  ∀ s t : State, step s = .next t →
    (t.inBuf ≠ s.inBuf → s.phase = .idle ∧ ∃ bs rest, s.req = .fillIn bs :: rest)
      ∧ (t.outBuf ≠ s.outBuf → s.phase = .idle ∧
        ((∃ bs rest, s.req = .provideOut bs :: rest)
          ∨ ∃ d rest o, s.req = .present d :: rest ∧ decode d = .ok (.assemble o)))
      ∧ (t.fb ≠ s.fb → s.phase = .run
          ∨ s.phase = .idle ∧ ∃ d rest o, s.req = .present d :: rest ∧ decode d = .ok (.frag o))

/-- The parameters are fixed: no step of the machine, no command and no reset among them, changes one (R19). -/
def Obligations.ParametersNeverChange : Prop :=
  ∀ s t : State, step s = .next t → t.params = s.params

/-- R10: what a command does depends only on its operands, the bytes of IN it reads, the parameters and the SINK's
answers.  Two machines that agree on those, whatever the rest of IN, the contents of OUT and FB, RES, the transient
registers and the history, answer alike, and every byte of OUT is written alike or left alone; and so does each later
step of a run, on the registers of that run.  The operand registers are among what is alike; what `CMD.*` holds after
a completion is the model's choice (log 13). -/
def Obligations.NoStateFromEarlierCommands : Prop :=
  (∀ (i : Instr) (s s' t : State),
    s'.params = s.params → s'.inBuf.size = s.inBuf.size → (∀ a, MayRead i s a → s'.inBuf.read a = s.inBuf.read a) →
    s'.outBuf.size = s.outBuf.size → s'.fb.size = s.fb.size → exec i s = .next t →
    ∃ t', exec i s' = .next t' ∧ t'.phase = t.phase ∧ t'.cmd = t.cmd ∧ t'.sinkCall = t.sinkCall
      ∧ (∀ a, t'.outBuf.read a = t.outBuf.read a
        ∨ t'.outBuf.read a = s'.outBuf.read a ∧ t.outBuf.read a = s.outBuf.read a)
      ∧ (t.phase = .idle → SameResult i t t') ∧ (t.phase ≠ .idle → t'.work = t.work))
    ∧ (∀ s s' t : State, s.phase ≠ .idle → s.resetIn = false → s'.resetIn = false → s'.phase = s.phase →
      s'.params = s.params → s'.cmd = s.cmd → s'.inBuf.size = s.inBuf.size →
      (∀ a, s.phase = .run → s.work.off.toNat ≤ a → a < s.work.off.toNat + s.work.cap.toNat → a < s.cmd.len.toNat →
        s'.inBuf.read a = s.inBuf.read a) →
      s'.sink = s.sink → s'.work = s.work → s'.fb.size = s.fb.size → s'.sinkCall = s.sinkCall → step s = .next t →
      ∃ t', step s' = .next t' ∧ t'.phase = t.phase ∧ t'.sink = t.sink ∧ t'.sinkCall = t.sinkCall
        ∧ (t.phase = .idle → t'.res.status = t.res.status ∧ t'.res.value = t.res.value)
        ∧ (t.phase ≠ .idle → t'.work = t.work))

/-- R23, R170: right after reset the block is idle with no result and no pending sink call. -/
def Obligations.ResetMakesTheBlockIdle : Prop :=
  State.reset.phase = .idle ∧ State.reset.res.done = 0 ∧ State.reset.sinkCall = none

/-- Reset at any moment (R23, R171): the running command is abandoned, no result is delivered, a pending sink call
is cancelled and the answer to it ignored (log 18), IN and OUT are left as they are. -/
def Obligations.ResetAbandonsTheCommand : Prop :=
  ∀ s : State, s.resetIn = true →
    ∃ t, step s = .next t ∧ t.phase = .idle ∧ t.res.done = 0 ∧ t.sinkCall = none ∧ t.resetIn = false
      ∧ t.inBuf = s.inBuf ∧ t.outBuf = s.outBuf ∧ t.params = s.params ∧ t.req = s.req
      ∧ t.sink = (if s.phase = .sinkWait then s.sink.drop 1 else s.sink)

/-! ## The Checksum Engine (`40_checksum.md`) -/

/-- `Sum16` is the one's-complement sum (R80, R84 items 1 and 2): zero for all-zero bytes, else the residue of the
exact word sum modulo `0xFFFF` in 1 .. `0xFFFF`. -/
def Obligations.Sum16IsOnesComplementSum : Prop :=
  ∀ (p : Config.Params) (b : List Byte), b.length ≤ 65535 →
    ((sum16 p.accW b).toNat = 0 ↔ ∀ x ∈ b, x = 0)
      ∧ (sum16 p.accW b).toNat % 65535 = wordTotal b % 65535
      ∧ (sum16 p.accW b).toNat = if wordTotal b = 0 then 0 else (wordTotal b - 1) % 65535 + 1

/-- R85: the word additions are exact, the result does not depend on the accumulator's width, the fold is
end-around carry to the last carry, and the complement is within 16 bits. -/
def Obligations.SumIsExactAndIndependentOfAccumulatorWidth : Prop :=
  (∀ (p : Config.Params) (b : List Byte), b.length ≤ 65535 →
    sumWords p.accW 0 b = wordTotal b ∧ wordTotal b < 2 ^ 31
      ∧ (csum16 p.accW b).toNat = 0xFFFF - (sum16 p.accW b).toNat)
    ∧ (∀ (p q : Config.Params) (b : List Byte), b.length ≤ 65535 → csum16 p.accW b = csum16 q.accW b)
    ∧ ∀ p : Config.Params,
      sum16 p.accW [0xFF, 0xFF, 0xFF, 0xFF, 0x00, 0x02] = 0x0002
        ∧ sum16 p.accW [0xFF, 0xFF, 0xFF, 0xFF, 0x00, 0x01] = 0x0001

/-- R84 item 3: for a 32-bit accumulator the fold is done after two rounds at most. -/
def Obligations.FoldTakesAtMostTwoRounds : Prop :=
  ∀ acc k : Nat, acc < 2 ^ 32 → 2 ≤ k →
    acc % 65536 + acc / 65536 ≤ 0x1FFFE ∧ foldCarries k acc = foldCarries 2 acc ∧ foldCarries k acc ≤ 0xFFFF

/-- R84 items 4 and 5: zero padding does not change the sum, the order of the words does not matter, and swapping
the two bytes of every word swaps the bytes of the sum. -/
def Obligations.SumUnderPaddingAndSwapping : Prop :=
  ∀ (p : Config.Params) (ws : List (Byte × Byte)) (b : List Byte), 2 * ws.length ≤ 65535 → b.length ≤ 65533 →
    (b.length % 2 = 1 → sum16 p.accW (b ++ [0]) = sum16 p.accW b)
      ∧ sum16 p.accW (b ++ [0, 0]) = sum16 p.accW b
      ∧ (∀ ws' : List (Byte × Byte), ws'.Perm ws →
        sum16 p.accW (ws'.flatMap fun w => [w.1, w.2]) = sum16 p.accW (ws.flatMap fun w => [w.1, w.2]))
      ∧ sum16 p.accW (ws.flatMap fun w => [w.2, w.1])
        = (sum16 p.accW (ws.flatMap fun w => [w.1, w.2])).extractLsb' 0 8
          ++ (sum16 p.accW (ws.flatMap fun w => [w.1, w.2])).extractLsb' 8 8

/-- R84 item 6: changing exactly one bit of a byte sequence changes its sum. -/
def Obligations.OneBitChangesTheSum : Prop :=
  ∀ (p : Config.Params) (b : List Byte) (i k : Nat), b.length ≤ 65535 → i < b.length → k < 8 →
    sum16 p.accW (b.set i (b.getD i 0 ^^^ BitVec.twoPow 8 k)) ≠ sum16 p.accW b

/-- R83: a header whose checksum field holds the checksum of the rest sums to `0xFFFF`, and its checksum is 0. -/
def Obligations.CorrectChecksumVerifies : Prop :=
  ∀ (p : Config.Params) (h : List Byte), h.length ≤ 65535 → h.length % 2 = 0 → 12 ≤ h.length →
    h.getD 10 0 = 0 → h.getD 11 0 = 0 →
    sum16 p.accW ((h.set 10 ((csum16 p.accW h).extractLsb' 8 8)).set 11 ((csum16 p.accW h).extractLsb' 0 8)) = 0xFFFF
      ∧ csum16 p.accW ((h.set 10 ((csum16 p.accW h).extractLsb' 8 8)).set 11 ((csum16 p.accW h).extractLsb' 0 8)) = 0

/-- R82: CSUM, `op = 1`, completes with OK and the checksum of `IN[0 .. len-1]`, ignores every other field, changes no
buffer, and is refused when IN is shorter than `len`; with R82's corner cases (for `len = 0` no byte of IN is read)
and its example.  What `CMD.*` holds after a completion is the model's choice (log 13).  The `len = 0` corner is an
inference the spec marks as derived. -/
def Obligations.CsumDeliversTheChecksum : Prop :=
  ∀ (s : State) (o : Operands),
    (encode (.csum o)).w0.extractLsb' 29 3 = 1
      ∧ csum16 s.params.accW [0x00, 0x01, 0xF2, 0x03, 0xF4, 0xF5, 0xF6, 0xF7] = 0x220D
      ∧ (s.inBuf.size < o.len.toNat → exec (.csum o) s = .refused .inTooShort)
      ∧ (o.len.toNat ≤ s.inBuf.size →
        ∃ t, exec (.csum o) s = .next t ∧ Completed t stOk
          ∧ t.res.value = csum16 s.params.accW (s.inBuf.bytes 0 o.len.toNat)
          ∧ t.cmd = { o with op := 1 } ∧ SameBytes s.inBuf t.inBuf ∧ SameBytes s.outBuf t.outBuf ∧ SameBytes s.fb t.fb
          ∧ KeepsOutside s t
          ∧ (∀ o' : Operands, o'.len = o.len →
            ∃ t', exec (.csum o') s = .next t' ∧ t'.res = t.res)
          ∧ (o.len.toNat = 0 → t.res.value = 0xFFFF
            ∧ ∀ bi : Buffer, exec (.csum o) { s with inBuf := bi } = .next { t with inBuf := bi })
          ∧ (o.len.toNat % 2 = 1 → t.res.value = csum16 s.params.accW (s.inBuf.bytes 0 o.len.toNat ++ [0]))
          ∧ ((∀ a, a < o.len.toNat → s.inBuf.read a = 0) → t.res.value = 0xFFFF)
          ∧ (0 < o.len.toNat → o.len.toNat % 2 = 0 → (∀ a, a < o.len.toNat → s.inBuf.read a = 0xFF) →
            t.res.value = 0))

/-! ## The Header Codec, build side (`41_header_build.md`) -/

/-- R92, R93: BUILD, `op = 2`, completes with OK from every state, its header has the operands' fields (ttl 64 for 0,
the total length as given, `mf` and `frag_off` zero, a correct checksum), `aux` is ignored, no buffer is read or
written; and a header whose total length is below 20 is structurally invalid to PARSE.  What `CMD.*` holds after a
completion is the model's choice (log 13). -/
def Obligations.BuildDeliversTheHeader : Prop :=
  ∀ (s : State) (o : Operands),
    (encode (.build o)).w0.extractLsb' 29 3 = 2 ∧ ∃ t, exec (.build o) s = .next t ∧ Completed t stOk
      ∧ HeaderFields s.params.accW t.res.hdr.toList s.params.tosBuild o.len.toNat o.id (decide (o.df = 1)) false 0
        (if o.ttl = 0 then 64 else o.ttl) o.proto o.src o.dst
      ∧ t.cmd = { o with op := 2 } ∧ SameBytes s.inBuf t.inBuf ∧ SameBytes s.outBuf t.outBuf ∧ SameBytes s.fb t.fb
      ∧ KeepsOutside s t
      ∧ (∀ bi bo bf : Buffer,
        exec (.build o) { s with inBuf := bi, outBuf := bo, fb := bf }
          = .next { t with inBuf := bi, outBuf := bo, fb := bf })
      ∧ (∀ a : Half, ∃ t', exec (.build { o with aux := a }) s = .next t' ∧ t'.res = t.res)
      ∧ (o.len.toNat < 20 → ∀ (s' : State) (o' : Operands), o'.len.toNat ≤ s'.inBuf.size →
        (∀ i, i < 20 → s'.inBuf.read i = t.res.hdr.toList.getD i 0) →
        ∃ t', exec (.parse o') s' = .next t' ∧ Completed t' stStructurallyInvalidHeader ∧ t'.res.valid = 0)

/-- R95, R97: ASSEMBLE, `op = 3`, reports LengthRange when `20 + len > 65535`, BufferTooSmall when the capacity is
below `20 + len`, both with value 0, whatever IN and OUT hold and with neither read or written; otherwise it writes
the header BUILD would build over the total length, then the payload, and nothing else, and returns the total.  What
`CMD.*` holds after a completion is the model's choice (log 13). -/
def Obligations.AssembleWritesAllOrNothing : Prop :=
  ∀ (s : State) (o : Operands), o.len.toNat ≤ s.inBuf.size → o.aux.toNat ≤ s.outBuf.size →
    (encode (.assemble o)).w0.extractLsb' 29 3 = 3 ∧ ∃ t, exec (.assemble o) s = .next t ∧ t.phase = .idle
      ∧ t.res.done = 1 ∧ t.cmd = { o with op := 3 }
      ∧ SameBytes s.inBuf t.inBuf ∧ SameBytes s.fb t.fb ∧ KeepsOutside s t
      ∧ (65535 < 20 + o.len.toNat → t.res.status = stLengthRange)
      ∧ (20 + o.len.toNat ≤ 65535 → o.aux.toNat < 20 + o.len.toNat → t.res.status = stBufferTooSmall)
      ∧ (65535 < 20 + o.len.toNat ∨ o.aux.toNat < 20 + o.len.toNat →
        t.res.value = 0 ∧ SameBytes s.outBuf t.outBuf
          ∧ ∀ bi bo : Buffer, bi.size = s.inBuf.size → bo.size = s.outBuf.size →
            exec (.assemble o) { s with inBuf := bi, outBuf := bo } = .next { t with inBuf := bi, outBuf := bo })
      ∧ (20 + o.len.toNat ≤ 65535 → 20 + o.len.toNat ≤ o.aux.toNat →
        t.res.status = stOk ∧ t.res.value.toNat = 20 + o.len.toNat ∧ t.outBuf.size = s.outBuf.size
          ∧ HeaderFields s.params.accW (t.outBuf.bytes 0 20) s.params.tosBuild (20 + o.len.toNat) o.id
            (decide (o.df = 1)) false 0 (if o.ttl = 0 then 64 else o.ttl) o.proto o.src o.dst
          ∧ (∀ j, j < o.len.toNat → t.outBuf.read (20 + j) = s.inBuf.read j)
          ∧ ∀ a, 20 + o.len.toNat ≤ a → t.outBuf.read a = s.outBuf.read a)

/-- R96: on success ASSEMBLE writes `H[i]` at `OUT[i]` and `IN[j]` at `OUT[20 + j]` and no other byte, `H` being the
header BUILD delivers for the total length; and PARSE of the packet, with buffer length `total`, finds it valid,
without options, with a right checksum and the total length. -/
def Obligations.AssembledPacketParsesBack : Prop :=
  ∀ (s : State) (o : Operands), o.len.toNat ≤ s.inBuf.size → o.aux.toNat ≤ s.outBuf.size →
    20 + o.len.toNat ≤ 65535 → 20 + o.len.toNat ≤ o.aux.toNat →
    ∃ t tb, exec (.assemble o) s = .next t
      ∧ exec (.build { o with len := BitVec.ofNat 16 (20 + o.len.toNat) }) s = .next tb
      ∧ (∀ i, i < 20 → t.outBuf.read i = tb.res.hdr.toList.getD i 0)
      ∧ (∀ j, j < o.len.toNat → t.outBuf.read (20 + j) = s.inBuf.read j)
      ∧ (∀ a, 20 + o.len.toNat ≤ a → t.outBuf.read a = s.outBuf.read a)
      ∧ ∀ (s' : State) (o' : Operands), s'.params = s.params → o'.len.toNat = 20 + o.len.toNat →
        o'.len.toNat ≤ s'.inBuf.size → (∀ a, a < 20 + o.len.toNat → s'.inBuf.read a = t.outBuf.read a) →
        ∃ t', exec (.parse o') s' = .next t' ∧ Completed t' stOk ∧ t'.res.valid = 1 ∧ t'.res.csumOk = 1
          ∧ t'.res.hasOptions = 0 ∧ t'.res.vTotalLen.toNat = 20 + o.len.toNat

/-- R94 (an inference the spec marks as derived) and R91: every header the block builds, by BUILD (in `RES.hdr`),
ASSEMBLE (in OUT) or FRAG (in FB at each sink call), has byte 0 = `0x45`, the reserved flag 0, a sum of `0xFFFF`, its
total-length, never both `df` and `mf`, its exact fragment-offset, and the effective ttl, which is not 0. -/
def Obligations.BuiltHeadersKeepTheInvariants : Prop :=
  (∀ (s t : State) (o : Operands), exec (.build o) s = .next t →
    sum16 s.params.accW t.res.hdr.toList = 0xFFFF ∧ t.res.hdr.toList.getD 8 0 ≠ 0
      ∧ HeaderFields s.params.accW t.res.hdr.toList s.params.tosBuild o.len.toNat o.id
        (decide (o.df = 1)) false 0 (if o.ttl = 0 then 64 else o.ttl) o.proto o.src o.dst)
    ∧ (∀ (s t : State) (o : Operands), exec (.assemble o) s = .next t → t.res.status = stOk →
      sum16 s.params.accW (t.outBuf.bytes 0 20) = 0xFFFF ∧ t.outBuf.read 8 ≠ 0
        ∧ HeaderFields s.params.accW (t.outBuf.bytes 0 20) s.params.tosBuild (20 + o.len.toNat) o.id
          (decide (o.df = 1)) false 0 (if o.ttl = 0 then 64 else o.ttl) o.proto o.src o.dst)
    ∧ ∀ s : State, Inv s → s.phase = .sinkWait →
      sum16 s.params.accW (s.fb.bytes 0 20) = 0xFFFF ∧ s.fb.read 8 ≠ 0 ∧ 8 * (s.work.off.toNat / 8) = s.work.off.toNat
        ∧ HeaderFields s.params.accW (s.fb.bytes 0 20) s.params.tosBuild (20 + s.work.n.toNat) s.cmd.id
          false (decide (s.work.off.toNat + s.work.n.toNat < s.cmd.len.toNat)) (s.work.off.toNat / 8)
          (if s.cmd.ttl = 0 then 64 else s.cmd.ttl) s.cmd.proto s.cmd.src s.cmd.dst

/-- R98: a header built by BUILD, at the start of a buffer of length `L` with `20 <= len <= L`, parses back to the
operands, ttl 0 as 64, with a right checksum. -/
def Obligations.BuiltHeaderRoundTrips : Prop :=
  ∀ (s t s' : State) (o o' : Operands), exec (.build o) s = .next t → s'.params = s.params →
    20 ≤ o.len.toNat → o.len.toNat ≤ o'.len.toNat → o'.len.toNat ≤ s'.inBuf.size →
    (∀ i, i < 20 → s'.inBuf.read i = t.res.hdr.toList.getD i 0) →
    ∃ t', exec (.parse o') s' = .next t' ∧ Completed t' stOk ∧ t'.res.valid = 1 ∧ t'.res.hasOptions = 0
      ∧ t'.res.csumOk = 1 ∧ t'.res.vVersion = 4 ∧ t'.res.vIhl = 5 ∧ t'.res.vTos = s.params.tosBuild
      ∧ t'.res.vTotalLen = o.len ∧ t'.res.vId = o.id ∧ t'.res.vRf = 0 ∧ t'.res.vDf = o.df ∧ t'.res.vMf = 0
      ∧ t'.res.vFragOff = 0 ∧ t'.res.vTtl = (if o.ttl = 0 then 64 else o.ttl) ∧ t'.res.vProto = o.proto
      ∧ t'.res.vSrc = o.src ∧ t'.res.vDst = o.dst
      ∧ t'.res.vCsum.toNat = (t.res.hdr.toList.getD 10 0).toNat * 256 + (t.res.hdr.toList.getD 11 0).toNat

/-! ## The Header Codec, parse side (`42_header_parse.md`) -/

/-- R110, R112, R114, R115: PARSE, `op = 4`, completes; the header is valid exactly by the four conditions of R112,
and otherwise the status is StructurallyInvalidHeader with `valid = 0`; when valid the status is OK, `has_options`
says whether the declared header is longer than 20 bytes, `csum_ok` compares the zero-filled recomputation over the
declared header with the received checksum, and the fourteen fields are the header's.  No buffer changes.  The reading
of `csum_ok` is the spec's decision followed in log 19.  What `CMD.*` holds after a completion is the model's choice
(log 13). -/
def Obligations.ParseDeliversTheFactsAndTheView : Prop :=
  ∀ (s : State) (o : Operands), o.len.toNat ≤ s.inBuf.size →
    (encode (.parse o)).w0.extractLsb' 29 3 = 4 ∧ ∃ t, exec (.parse o) s = .next t ∧ t.phase = .idle
      ∧ t.res.done = 1 ∧ t.cmd = { o with op := 4 }
      ∧ SameBytes s.inBuf t.inBuf ∧ SameBytes s.outBuf t.outBuf ∧ SameBytes s.fb t.fb ∧ KeepsOutside s t
      ∧ (¬ StructurallyValid s.inBuf o.len.toNat → t.res.status = stStructurallyInvalidHeader ∧ t.res.valid = 0)
      ∧ (StructurallyValid s.inBuf o.len.toNat →
        t.res.status = stOk ∧ t.res.valid = 1
          ∧ t.res.hasOptions = (if 20 < 4 * ((s.inBuf.read 0).toNat % 16) then 1 else 0)
          ∧ t.res.csumOk =
            (if (csum16 s.params.accW
                  (((s.inBuf.bytes 0 (4 * ((s.inBuf.read 0).toNat % 16))).set 10 0).set 11 0)).toNat
                = (s.inBuf.read 10).toNat * 256 + (s.inBuf.read 11).toNat then 1 else 0)
          ∧ t.res.vVersion.toNat = (s.inBuf.read 0).toNat / 16
          ∧ t.res.vIhl.toNat = (s.inBuf.read 0).toNat % 16
          ∧ t.res.vTos = s.inBuf.read 1
          ∧ t.res.vTotalLen.toNat = (s.inBuf.read 2).toNat * 256 + (s.inBuf.read 3).toNat
          ∧ t.res.vId.toNat = (s.inBuf.read 4).toNat * 256 + (s.inBuf.read 5).toNat
          ∧ t.res.vRf.toNat = (s.inBuf.read 6).toNat / 128
          ∧ t.res.vDf.toNat = (s.inBuf.read 6).toNat / 64 % 2
          ∧ t.res.vMf.toNat = (s.inBuf.read 6).toNat / 32 % 2
          ∧ t.res.vFragOff.toNat = (s.inBuf.read 6).toNat % 32 * 256 + (s.inBuf.read 7).toNat
          ∧ t.res.vTtl = s.inBuf.read 8
          ∧ t.res.vProto = s.inBuf.read 9
          ∧ t.res.vCsum.toNat = (s.inBuf.read 10).toNat * 256 + (s.inBuf.read 11).toNat
          ∧ t.res.vSrc.toNat = (s.inBuf.read 12).toNat * 2 ^ 24 + (s.inBuf.read 13).toNat * 2 ^ 16
            + (s.inBuf.read 14).toNat * 2 ^ 8 + (s.inBuf.read 15).toNat
          ∧ t.res.vDst.toNat = (s.inBuf.read 16).toNat * 2 ^ 24 + (s.inBuf.read 17).toNat * 2 ^ 16
            + (s.inBuf.read 18).toNat * 2 ^ 8 + (s.inBuf.read 19).toNat)

/-- R115: for a valid header, `csum_ok` is 1 exactly when the recomputation equals the received checksum; this agrees
with the test "the whole header sums to `0xFFFF`" except where the zero-filled sum is `0xFFFF`: there the first
accepts only a received `0x0000`, the second also `0xFFFF`. -/
def Obligations.ChecksumTestsAgreeButOnOneFamily : Prop :=
  ∀ (s t : State) (o : Operands), StructurallyValid s.inBuf o.len.toNat → exec (.parse o) s = .next t →
    let h := s.inBuf.bytes 0 (4 * ((s.inBuf.read 0).toNat % 16))
    let z := (h.set 10 0).set 11 0
    let received := (s.inBuf.read 10).toNat * 256 + (s.inBuf.read 11).toNat
    (t.res.csumOk = 1 ↔ (csum16 s.params.accW z).toNat = received)
      ∧ (sum16 s.params.accW z ≠ 0xFFFF → (t.res.csumOk = 1 ↔ sum16 s.params.accW h = 0xFFFF))
      ∧ (sum16 s.params.accW z = 0xFFFF →
        (t.res.csumOk = 1 ↔ received = 0)
          ∧ (sum16 s.params.accW h = 0xFFFF ↔ received = 0 ∨ received = 0xFFFF))

/-- R119: flip one bit of the declared header of a buffer that parses with `valid = 1` and `csum_ok = 1`, outside the
IHL nibble (or anywhere, when the buffer is 20 bytes long): the damaged buffer parses with `valid = 0`, possible only
for a flip in byte 0, 2 or 3, or with `valid = 1` and `csum_ok = 0`. -/
def Obligations.OneFlippedBitIsNoticed : Prop :=
  ∀ (s t : State) (o : Operands) (i k : Nat), exec (.parse o) s = .next t → t.res.valid = 1 → t.res.csumOk = 1 →
    i < 4 * ((s.inBuf.read 0).toNat % 16) → k < 8 → ¬ (i = 0 ∧ k < 4) ∨ o.len.toNat = 20 →
    ∃ t', exec (.parse o) { s with inBuf := s.inBuf.write i [s.inBuf.read i ^^^ BitVec.twoPow 8 k] } = .next t'
      ∧ (t'.res.valid = 0 ∧ (i = 0 ∨ i = 2 ∨ i = 3) ∨ t'.res.valid = 1 ∧ t'.res.csumOk = 0)

/-! ## What a command reads and writes (`20_memory.md`) -/

/-- R36: a command runs exactly when REQ's buffers are as long as it says; otherwise the launch is refused.  A command
that runs goes on to its next state, at its launch and in each later round: it never addresses a byte outside a
buffer. -/
def Obligations.LaunchRefusedExactlyWhenBuffersAreShort : Prop :=
  (∀ (i : Instr) (s : State), 65532 ≤ s.fb.size →
    (Launchable i s → ∃ t, exec i s = .next t) ∧ (¬ Launchable i s → ∃ r, exec i s = .refused r))
    ∧ ∀ s : State, Inv s → s.phase ≠ .idle → ∃ t, step s = .next t

/-- R37, R39: a command reads no byte of IN outside its read set: with any other bytes there, it does the same.  The
later rounds of FRAG read only their own slice, an answer reads nothing, and the slices come in increasing `off`. -/
def Obligations.CommandsReadOnlyTheirReadSet : Prop :=
  (∀ (i : Instr) (s t : State) (b : Buffer), b.size = s.inBuf.size →
    (∀ a, MayRead i s a → b.read a = s.inBuf.read a) → exec i s = .next t →
    exec i { s with inBuf := b } = .next { t with inBuf := b })
    ∧ (∀ (s t : State) (b : Buffer), s.phase ≠ .idle → s.resetIn = false → b.size = s.inBuf.size →
      (∀ a, s.phase = .run → s.work.off.toNat ≤ a → a < s.work.off.toNat + s.work.cap.toNat → a < s.cmd.len.toNat →
        b.read a = s.inBuf.read a) →
      step s = .next t → step { s with inBuf := b } = .next { t with inBuf := b })
    ∧ ∀ s t : State, Inv s → s.phase = .sinkWait → s.resetIn = false → step s = .next t → t.phase = .run →
      t.work.off.toNat = s.work.off.toNat + s.work.n.toNat ∧ s.work.off.toNat < t.work.off.toNat

/-- R38, with the frame of every command: IN, the parameters, the reset line and the agents' lists are untouched, the
operand registers hold the command (after its completion by the model's choice, log 13); CSUM, BUILD and PARSE write
no buffer; ASSEMBLE writes exactly the packet, no byte of OUT from `20 + len` on, none of FB, and none at all when it
fails; FRAG writes no byte of OUT and none of FB from `fb_len` on, at its start and in each later round, and FB at no
other time.  FB is meant as its raw cells, which stay as they are after an answer and a completion by the model's
choice (log 10). -/
def Obligations.CommandsWriteOnlyTheirWriteSet : Prop :=
  (∀ (i : Instr) (s t : State), exec i s = .next t →
    SameBytes s.inBuf t.inBuf ∧ KeepsOutside s t ∧ t.cmd = { i.operands with op := i.op }
      ∧ match i with
        | .csum _ => SameBytes s.outBuf t.outBuf ∧ SameBytes s.fb t.fb
        | .build _ => SameBytes s.outBuf t.outBuf ∧ SameBytes s.fb t.fb
        | .parse _ => SameBytes s.outBuf t.outBuf ∧ SameBytes s.fb t.fb
        | .assemble o =>
          SameBytes s.fb t.fb ∧ t.outBuf.size = s.outBuf.size
            ∧ (t.res.status = stOk → ∀ a, t.outBuf.read a =
              if a < 20 then (unfragmentedHeader s.params o (BitVec.ofNat 16 (20 + o.len.toNat))).toList.getD a 0
              else if a < 20 + o.len.toNat then s.inBuf.read (a - 20) else s.outBuf.read a)
            ∧ (t.res.status ≠ stOk → SameBytes s.outBuf t.outBuf)
        | .frag _ =>
          SameBytes s.outBuf t.outBuf ∧ t.fb.size = s.fb.size
            ∧ (t.phase ≠ .sinkWait → SameBytes s.fb t.fb)
            ∧ (t.phase = .sinkWait → ∀ a, t.work.fbLen.toNat ≤ a → t.fb.read a = s.fb.read a))
    ∧ ∀ s t : State, Inv s → s.phase ≠ .idle → s.resetIn = false → step s = .next t →
      SameBytes s.inBuf t.inBuf ∧ SameBytes s.outBuf t.outBuf ∧ t.fb.size = s.fb.size
        ∧ (s.phase = .sinkWait ∨ t.phase = .idle → SameBytes s.fb t.fb)
        ∧ (s.phase = .run → t.phase = .sinkWait → ∀ a, t.work.fbLen.toNat ≤ a → t.fb.read a = s.fb.read a)

/-- The completion codes per command (R70, R71, R150): CSUM and BUILD only OK, ASSEMBLE also LengthRange and
BufferTooSmall, PARSE also StructurallyInvalidHeader, FRAG (before any sink call) also MtuTooSmall; a command that
does not complete in its first step is a FRAG waiting for the SINK, with no result yet. -/
def Obligations.StatusCodesOfEachCommand : Prop :=
  ∀ (i : Instr) (s t : State), exec i s = .next t →
    match i with
    | .csum _ => Completed t stOk
    | .build _ => Completed t stOk
    | .assemble _ => Completed t stOk ∨ Completed t stLengthRange ∨ Completed t stBufferTooSmall
    | .parse _ => Completed t stOk ∨ Completed t stStructurallyInvalidHeader
    | .frag _ => Completed t stOk ∨ Completed t stMtuTooSmall ∨ t.phase = .sinkWait ∧ t.res.done = 0

/-! ## The Fragmenter (`43_fragmenter.md`) -/

/-- R126: below the MTU floor FRAG fails at once with MtuTooSmall and value 0, whatever the payload length and whatever
the buffers hold, with none of them read or written and the SINK not called; the floor is 28 by default, the least MTU
whose capacity is not 0. -/
def Obligations.FragFailsBelowTheMtuFloor : Prop :=
  Config.Params.default.mtuMin = 28 ∧ (∀ m : Half, 20 ≤ m.toNat → (capacity m = 0 ↔ m.toNat < 28))
    ∧ ∀ (s : State) (o : Operands), o.len.toNat ≤ s.inBuf.size → o.aux.toNat < s.params.mtuMin →
    ∃ t, exec (.frag o) s = .next t ∧ Completed t stMtuTooSmall ∧ t.res.value = 0 ∧ t.sinkCall = none
      ∧ SameBytes s.inBuf t.inBuf ∧ SameBytes s.outBuf t.outBuf ∧ SameBytes s.fb t.fb ∧ KeepsOutside s t
      ∧ ∀ bi bf : Buffer, bi.size = s.inBuf.size →
        exec (.frag o) { s with inBuf := bi, fb := bf } = .next { t with inBuf := bi, fb := bf }

/-- R127: for an MTU of at least 20 the capacity is the largest multiple of 8 that fits in `MTU - 20`, the 16-bit
difference with its low three bits cleared; for an MTU not below the floor it lies in 8 .. 65512; with R127's
examples. -/
def Obligations.CapacityIsLargestMultipleOfEight : Prop :=
  (∀ mtu : Half, 20 ≤ mtu.toNat →
    capacity mtu = (mtu - 20) &&& 0xFFF8 ∧ (capacity mtu).toNat = 8 * ((mtu.toNat - 20) / 8)
      ∧ (capacity mtu).toNat + 20 ≤ mtu.toNat ∧ ∀ m, 8 * m + 20 ≤ mtu.toNat → 8 * m ≤ (capacity mtu).toNat)
    ∧ (∀ (p : Config.Params) (mtu : Half), p.mtuMin ≤ mtu.toNat →
      8 ≤ (capacity mtu).toNat ∧ (capacity mtu).toNat ≤ 65512 ∧ (capacity mtu).toNat % 8 = 0)
    ∧ capacity 28 = 8 ∧ capacity 35 = 8 ∧ capacity 36 = 16 ∧ capacity 1500 = 1480 ∧ capacity 65535 = 65512

/-- R130, the first round: with an MTU that passes the floor FRAG runs.  An empty payload completes at once with OK
and value 0, FB not written (R139); otherwise the SINK is being called with fragment 0, one call is counted, no result
is present, and FB beyond the fragment, IN and OUT are unchanged.  What `CMD.*` holds after a completion is the
model's choice (log 13). -/
def Obligations.FragHandsOverTheFirstFragment : Prop :=
  ∀ (s : State) (o : Operands), o.len.toNat ≤ s.inBuf.size → 65532 ≤ s.fb.size → s.params.mtuMin ≤ o.aux.toNat →
    ∃ t, exec (.frag o) s = .next t ∧ t.cmd = { o with op := 5 } ∧ SameBytes s.inBuf t.inBuf
      ∧ SameBytes s.outBuf t.outBuf ∧ KeepsOutside s t
      ∧ (o.len.toNat = 0 → Completed t stOk ∧ t.res.value = 0 ∧ SameBytes s.fb t.fb)
      ∧ (o.len.toNat ≠ 0 →
        t.phase = .sinkWait ∧ t.res.done = 0 ∧ t.work.cnt.toNat = 1 ∧ t.work.off.toNat = 0
          ∧ ∃ f, t.sinkCall = some f ∧ t.work.fbLen.toNat = f.length ∧ IsFragment s.params t.cmd s.inBuf 0 f
            ∧ ∀ a, f.length ≤ a → t.fb.read a = s.fb.read a)

/-- R130, R134, the later rounds: with `cnt` calls answered 0, the block hands over fragment number `cnt` while
payload remains, and otherwise completes with OK and the count, which is `ceil(P / cap)`.  What `CMD.*` holds after a
completion is the model's choice (log 13). -/
def Obligations.FragGoesOnUntilThePayloadEnds : Prop :=
  ∀ s : State, Inv s → s.phase = .run → s.resetIn = false →
    ∃ t, step s = .next t ∧ t.inBuf = s.inBuf ∧ t.outBuf = s.outBuf ∧ KeepsOutside s t ∧ t.cmd = s.cmd
      ∧ (s.work.off.toNat < s.cmd.len.toNat →
        t.phase = .sinkWait ∧ t.res.done = 0 ∧ t.work.cnt.toNat = s.work.cnt.toNat + 1
          ∧ ∃ f, t.sinkCall = some f ∧ t.work.fbLen.toNat = f.length
            ∧ IsFragment s.params s.cmd s.inBuf s.work.cnt.toNat f)
      ∧ (s.cmd.len.toNat ≤ s.work.off.toNat →
        Completed t stOk ∧ t.res.value = s.work.cnt
          ∧ t.res.value.toNat = fragCount s.cmd.len.toNat s.cmd.aux.toNat)

/-- R131: the SINK's answer 0 lets the block go on past the slice just accepted; any other answer ends the run with
SinkAborted and the number of calls made.  The block looks at nothing but whether the answer is zero.  That the
refusal and the completion are one step is the model's choice (log 22), and so is what `CMD.*` holds after the abort
(log 13). -/
def Obligations.SinkAnswerDecidesGoOrAbort : Prop :=
  ∀ (s : State) (rc : BitVec 1) (rest : List (BitVec 1)), Inv s → s.phase = .sinkWait → s.resetIn = false →
    s.sink = rc :: rest →
    ∃ t, step s = .next t ∧ t.sink = rest ∧ t.inBuf = s.inBuf ∧ t.outBuf = s.outBuf ∧ t.req = s.req ∧ t.cmd = s.cmd
      ∧ (rc = 0 → t.phase = .run ∧ t.res.done = 0 ∧ t.work.cnt = s.work.cnt ∧ t.work.cap = s.work.cap
        ∧ t.work.off.toNat = s.work.off.toNat + s.work.n.toNat ∧ t.work.off.toNat ≤ s.cmd.len.toNat)
      ∧ (rc ≠ 0 → Completed t stSinkAborted ∧ t.res.value = s.work.cnt)

/-- R136: at every sink call `off` is a multiple of the capacity and of 8, the division `off / 8` is exact, and every
slice but the last is a full capacity, a multiple of 8. -/
def Obligations.SplitsAreAligned : Prop :=
  ∀ s : State, Inv s → s.phase = .sinkWait →
    s.work.cap.toNat ∣ s.work.off.toNat ∧ 8 ∣ s.work.cap.toNat ∧ s.work.off.toNat % 8 = 0
      ∧ 8 * (s.work.off.toNat / 8) = s.work.off.toNat
      ∧ (s.work.off.toNat + s.work.n.toNat < s.cmd.len.toNat → s.work.n = s.work.cap ∧ s.work.n.toNat % 8 = 0)

/-- R137 (an inference the spec marks as derived): at a sink call no field overflows: `off <= 65528`,
`frag_off <= 8191`, total-length at most 65532 and at most the MTU, `cnt <= 8192`; the slice is not empty. -/
def Obligations.FragmentFieldsNeverOverflow : Prop :=
  ∀ s : State, Inv s → s.phase = .sinkWait →
    1 ≤ s.work.n.toNat ∧ s.work.off.toNat ≤ 65528 ∧ s.work.off.toNat / 8 ≤ 8191
      ∧ 20 + s.work.n.toNat ≤ 65532 ∧ 20 + s.work.n.toNat ≤ s.cmd.aux.toNat ∧ s.work.cnt.toNat ≤ 8192
      ∧ s.work.off.toNat + s.work.n.toNat ≤ s.cmd.len.toNat

/-- R138: one sink call is followed by the next only after the answer 0, at a higher offset, right after the slice
just accepted; FB does not change while a call is pending. -/
def Obligations.FragmentsComeInIncreasingOrder : Prop :=
  (∀ s t : State, s.phase = .sinkWait → step s = .next t → t.phase = .sinkWait → t.sinkCall = s.sinkCall)
    ∧ ∀ s t u : State, Inv s → s.phase = .sinkWait → s.resetIn = false → step s = .next t → t.phase = .run →
      step t = .next u → u.phase = .sinkWait →
      (∃ rest, s.sink = 0 :: rest) ∧ u.work.off.toNat = s.work.off.toNat + s.work.n.toNat
        ∧ s.work.off.toNat < u.work.off.toNat ∧ u.work.cnt.toNat = s.work.cnt.toNat + 1

/-- R128 (for this block an inference the spec marks as derived), R129, R134: a FRAG whose calls are all answered 0
completes with OK and value `ceil(P / C)`; it hands over exactly that many fragments, fragment `i` at offset
`i * C / 8`, only the last with more-fragments clear, and their payloads in order are `IN[0 .. P-1]`. -/
def Obligations.FragmentationIsCompleteAndFaithful : Prop :=
  ∀ (s : State) (o : Operands) (rest : List ReqStep) (sk : List (BitVec 1)),
    s.phase = .idle → s.resetIn = false → 65532 ≤ s.fb.size → o.len.toNat ≤ s.inBuf.size →
    s.params.mtuMin ≤ o.aux.toNat → s.req = .present (encode (.frag o)) :: rest →
    s.sink = List.replicate (fragCount o.len.toNat o.aux.toNat) 0 ++ sk →
    ∃ (k : Nat) (t : State), Host.Core.run Sys2Proof.core k s = .next t ∧ Completed t stOk
      ∧ t.res.value.toNat = fragCount o.len.toNat o.aux.toNat ∧ t.sink = sk ∧ t.req = rest
      ∧ t.inBuf = s.inBuf ∧ t.outBuf = s.outBuf
      ∧ (handedOver k s).length = fragCount o.len.toNat o.aux.toNat
      ∧ (∀ i f, (handedOver k s)[i]? = some f → IsFragment s.params { o with op := 5 } s.inBuf i f)
      ∧ ((handedOver k s).map fun f => f.drop 20).flatten = s.inBuf.bytes 0 o.len.toNat

/-- R132: if the SINK refuses call `k`, the run ends there with SinkAborted and value `k`: exactly `k` fragments were
handed over, the refused one among them, no further one is attempted, and no byte of IN beyond fragment `k` was read. -/
def Obligations.RefusedFragmentEndsTheRun : Prop :=
  ∀ (s : State) (o : Operands) (rest : List ReqStep) (sk : List (BitVec 1)) (k : Nat),
    s.phase = .idle → s.resetIn = false → 65532 ≤ s.fb.size → o.len.toNat ≤ s.inBuf.size →
    s.params.mtuMin ≤ o.aux.toNat → s.req = .present (encode (.frag o)) :: rest →
    1 ≤ k → k ≤ fragCount o.len.toNat o.aux.toNat → s.sink = List.replicate (k - 1) 0 ++ 1 :: sk →
    ∃ (m : Nat) (t : State), Host.Core.run Sys2Proof.core m s = .next t ∧ Completed t stSinkAborted
      ∧ t.res.value.toNat = k ∧ t.sink = sk ∧ t.req = rest ∧ (handedOver m s).length = k
      ∧ (∀ i f, (handedOver m s)[i]? = some f → IsFragment s.params { o with op := 5 } s.inBuf i f)
      ∧ ∀ b : Buffer, b.size = s.inBuf.size →
        (∀ a, a < k * (8 * ((o.aux.toNat - 20) / 8)) → b.read a = s.inBuf.read a) →
        Host.Core.run Sys2Proof.core m { s with inBuf := b } = .next { t with inBuf := b }

/-! ## The machine as a whole -/

/-- The invariant holds right after reset, with the reset values the model names (log 5 to 10). -/
def Obligations.InvariantHoldsAtReset : Prop := Inv State.reset

/-- Every step from a state that meets the invariant leads to one that meets it: the buffers stay in canonical form, a
result is present only while idle and never has status 7, and a running FRAG has its registers and FB in order. -/
def Obligations.StepKeepsTheInvariant : Prop :=
  ∀ s t : State, Inv s → step s = .next t → Inv t

/-- From a state that meets the invariant the machine never accesses a byte outside a buffer (R36, R39), and a running
command is never refused: only a launch with short buffers is. -/
def Obligations.StepNeverLeavesTheBuffers : Prop :=
  ∀ s : State, Inv s → (∀ f, step s ≠ .fault f) ∧ (s.phase ≠ .idle → ∃ t, step s = .next t)
end

