-- ==== Sys2Proof/Laws/Decode.lean ====
section
/-! SUPPORT. Laws of the descriptor: what each field of a packed descriptor reads as, and that packing a
descriptor's own fields gives it back. -/

namespace Sys2Proof

/-! ### Fields of a concatenation -/

theorem extract_append_left {m n : Nat} (a : BitVec m) (b : BitVec n) (s l : Nat) (h : n ≤ s) :
    (a ++ b).extractLsb' s l = a.extractLsb' (s - n) l := by
  apply BitVec.eq_of_getLsbD_eq
  intro i hi
  simp only [BitVec.getLsbD_extractLsb', BitVec.getLsbD_append, hi, decide_true, Bool.true_and,
    show ¬ s + i < n by omega, if_false]
  congr 1
  omega

theorem extract_append_right {m n : Nat} (a : BitVec m) (b : BitVec n) (s l : Nat) (h : s + l ≤ n) :
    (a ++ b).extractLsb' s l = b.extractLsb' s l := by
  apply BitVec.eq_of_getLsbD_eq
  intro i hi
  simp [BitVec.getLsbD_append, show s + i < n by omega, hi]

theorem extract_all {n : Nat} (a : BitVec n) : a.extractLsb' 0 n = a := by
  apply BitVec.eq_of_getLsbD_eq
  intro i hi
  simp [hi]

/-- Two adjacent fields make one. -/
theorem extract_append_extract {w : Nat} (v : BitVec w) (s l k : Nat) :
    v.extractLsb' (s + l) k ++ v.extractLsb' s l = v.extractLsb' s (k + l) := by
  apply BitVec.eq_of_getLsbD_eq
  intro i hi
  simp only [BitVec.getLsbD_extractLsb', BitVec.getLsbD_append]
  by_cases h : i < l
  · simp [h, hi]
  · simp [h, hi, show i - l < k by omega, show s + l + (i - l) = s + i by omega]

/-! ### A packed descriptor (R60) -/

section
variable (op : BitVec 3) (o : Operands)

@[simp] theorem pack_op : (Desc.pack op o).op = op := by
  simp only [Desc.op, Desc.pack]
  iterate 5 rw [extract_append_left _ _ _ _ (by decide)]
  exact extract_all _

@[simp] theorem pack_rsv0 : (Desc.pack op o).rsv0 = 0 := by
  simp only [Desc.rsv0, Desc.pack]
  iterate 3 rw [extract_append_left _ _ _ _ (by decide)]
  rw [extract_append_right _ _ _ _ (by decide)]
  exact extract_all _

@[simp] theorem pack_rsv1 : (Desc.pack op o).rsv1 = 0 := by
  simp only [Desc.rsv1, Desc.pack]
  rw [extract_append_right _ _ _ _ (by decide)]
  exact extract_all _

@[simp] theorem pack_rsv2 : (Desc.pack op o).rsv2 = 0 := by
  simp only [Desc.rsv2, Desc.pack]
  rw [extract_append_right _ _ _ _ (by decide)]
  exact extract_all _

@[simp] theorem pack_df : (Desc.pack op o).df = o.df := by
  simp only [Desc.df, Desc.pack]
  iterate 4 rw [extract_append_left _ _ _ _ (by decide)]
  rw [extract_append_right _ _ _ _ (by decide)]
  exact extract_all _

@[simp] theorem pack_ttl : (Desc.pack op o).ttl = o.ttl := by
  simp only [Desc.ttl, Desc.pack]
  iterate 2 rw [extract_append_left _ _ _ _ (by decide)]
  rw [extract_append_right _ _ _ _ (by decide)]
  exact extract_all _

@[simp] theorem pack_proto : (Desc.pack op o).proto = o.proto := by
  simp only [Desc.proto, Desc.pack]
  rw [extract_append_left _ _ _ _ (by decide), extract_append_right _ _ _ _ (by decide)]
  exact extract_all _

@[simp] theorem pack_id : (Desc.pack op o).id = o.id := by
  simp only [Desc.id, Desc.pack]
  rw [extract_append_left _ _ _ _ (by decide)]
  exact extract_all _

@[simp] theorem pack_len : (Desc.pack op o).len = o.len := by
  simp only [Desc.len, Desc.pack]
  rw [extract_append_right _ _ _ _ (by decide)]
  exact extract_all _

@[simp] theorem pack_aux : (Desc.pack op o).aux = o.aux := by
  simp only [Desc.aux, Desc.pack]
  rw [extract_append_left _ _ _ _ (by decide)]
  exact extract_all _

/-- Every operand field of a packed descriptor is the one that was packed. -/
@[simp] theorem pack_operands : (Desc.pack op o).operands = o := by
  simp only [Desc.operands, pack_df, pack_ttl, pack_proto, pack_id, pack_len, pack_aux]
  rfl

end

/-- A descriptor whose reserved fields are zero is its own fields, packed. -/
theorem pack_of_reserved_zero (d : Desc) (h0 : d.rsv0 = 0) (h1 : d.rsv1 = 0) (h2 : d.rsv2 = 0) :
    Desc.pack d.op d.operands = d := by
  obtain ⟨w0, w1, w2, w3, w4⟩ := d
  simp only [Desc.pack, Desc.mk.injEq, Desc.operands, Desc.src, Desc.dst, and_true]
  refine ⟨?_, ?_, ?_⟩
  · rw [← h0, ← h1]
    simp only [Desc.op, Desc.df, Desc.rsv0, Desc.ttl, Desc.proto, Desc.rsv1]
    have := extract_all w0
    rw [extract_append_extract w0 28 1 3, extract_append_extract w0 24 4 4, extract_append_extract w0 16 8 8,
      extract_append_extract w0 8 8 16, extract_append_extract w0 0 8 24]
    exact this
  · simp only [Desc.id, Desc.len]
    rw [extract_append_extract w1 0 16 16]
    exact extract_all w1
  · rw [← h2]
    simp only [Desc.aux, Desc.rsv2]
    rw [extract_append_extract w2 0 16 16]
    exact extract_all w2

end Sys2Proof
end

