-- ==== Sys2Proof/Laws/Memory.lean ====
section
/-! SUPPORT. Laws of the buffers: read after write, and that every memory operation keeps the canonical form. -/

namespace Sys2Proof.Machine

/-! ### Reading -/

theorem Memory.read_of_forall_ne (m : Memory) (a : Nat) (h : ∀ c ∈ m, c.1 ≠ a) :
    Memory.read m a = Config.unlisted := by
  induction m with
  | nil => rfl
  | cons c m ih =>
    obtain ⟨k, v⟩ := c
    have hk : k ≠ a := h (k, v) (by simp)
    simp only [Memory.read, hk, if_false]
    exact ih fun c hc => h c (by simp [hc])

theorem Memory.read_append_of_left (m m' : Memory) (a : Nat) (h : ∀ c ∈ m', c.1 ≠ a) :
    Memory.read (m ++ m') a = Memory.read m a := by
  induction m with
  | nil => simpa [Memory.read] using Memory.read_of_forall_ne m' a h
  | cons c m ih =>
    obtain ⟨k, v⟩ := c
    by_cases hk : k = a <;> simp [Memory.read, hk, ih]

theorem Memory.read_append_of_right (m m' : Memory) (a : Nat) (h : ∀ c ∈ m, c.1 ≠ a) :
    Memory.read (m ++ m') a = Memory.read m' a := by
  induction m with
  | nil => rfl
  | cons c m ih =>
    obtain ⟨k, v⟩ := c
    have hk : k ≠ a := h (k, v) (by simp)
    simp only [List.cons_append, Memory.read, hk, if_false]
    exact ih fun c hc => h c (by simp [hc])

theorem Memory.read_filter_of_pos (m : Memory) (p : Nat → Bool) (a : Nat) (h : p a = true) :
    Memory.read (m.filter fun c => p c.1) a = Memory.read m a := by
  induction m with
  | nil => rfl
  | cons c m ih =>
    obtain ⟨k, v⟩ := c
    by_cases hk : k = a
    · subst hk; simp [Memory.read, h]
    · by_cases hp : p k <;> simp [List.filter, hp, Memory.read, hk, ih]

theorem Memory.mem_cellsAt_bounds {c : Host.Cell} (bs : List Byte) (a : Nat) (h : c ∈ Memory.cellsAt a bs) :
    a ≤ c.1 ∧ c.1 < a + bs.length := by
  induction bs generalizing a with
  | nil => simp [Memory.cellsAt] at h
  | cons b bs ih =>
    simp only [Memory.cellsAt] at h
    split at h
    · have := ih (a + 1) h; simp only [List.length_cons]; omega
    · simp only [List.mem_cons] at h
      rcases h with rfl | h
      · simp
      · have := ih (a + 1) h; simp only [List.length_cons]; omega

theorem Memory.read_cellsAt (bs : List Byte) (a i : Nat) :
    Memory.read (Memory.cellsAt a bs) (a + i) = bs.getD i Config.unlisted := by
  induction bs generalizing a i with
  | nil => simp [Memory.cellsAt, Memory.read]
  | cons b bs ih =>
    cases i with
    | zero =>
      simp only [Memory.cellsAt, Nat.add_zero, List.getD_cons_zero]
      split
      · rename_i hb
        rw [Memory.read_of_forall_ne, hb]
        intro c hc
        have := Memory.mem_cellsAt_bounds bs (a + 1) hc
        omega
      · simp [Memory.read]
    | succ i =>
      have h := ih (a + 1) i
      rw [show a + 1 + i = a + (i + 1) by omega] at h
      simp only [Memory.cellsAt, List.getD_cons_succ]
      split
      · exact h
      · rw [Memory.read, if_neg (by omega)]; exact h

/-- What a store leaves at every address. -/
theorem Memory.read_store (m : Memory) (a : Nat) (bs : List Byte) (x : Nat) :
    Memory.read (Memory.store m a bs) x =
      if a ≤ x ∧ x < a + bs.length then bs.getD (x - a) Config.unlisted else Memory.read m x := by
  unfold Memory.store
  split
  · rename_i h
    rw [Memory.read_append_of_left, Memory.read_append_of_right]
    · have := Memory.read_cellsAt bs a (x - a)
      rwa [show a + (x - a) = x by omega] at this
    · intro c hc; simp only [List.mem_filter, decide_eq_true_eq] at hc; omega
    · intro c hc; simp only [List.mem_filter, decide_eq_true_eq] at hc; omega
  · rename_i h
    by_cases hx : x < a
    · rw [Memory.read_append_of_left, Memory.read_append_of_left]
      · exact Memory.read_filter_of_pos m (fun k => decide (k < a)) x (by simpa using hx)
      · intro c hc; have := Memory.mem_cellsAt_bounds bs a hc; omega
      · intro c hc; simp only [List.mem_filter, decide_eq_true_eq] at hc; omega
    · rw [Memory.read_append_of_right]
      · exact Memory.read_filter_of_pos m (fun k => decide (a + bs.length ≤ k)) x (by simp; omega)
      · intro c hc
        simp only [List.mem_append, List.mem_filter, decide_eq_true_eq] at hc
        rcases hc with hc | hc
        · omega
        · have := Memory.mem_cellsAt_bounds bs a hc; omega

/-! ### The canonical form -/

theorem Memory.cellsAt_wf (bs : List Byte) (a : Nat) : Memory.wf (Memory.cellsAt a bs) := by
  induction bs generalizing a with
  | nil => simp [Memory.cellsAt, Memory.wf]
  | cons b bs ih =>
    simp only [Memory.cellsAt]
    split
    · exact ih (a + 1)
    · rename_i hb
      obtain ⟨hp, hn⟩ := ih (a + 1)
      refine ⟨List.pairwise_cons.2 ⟨fun c hc => ?_, hp⟩, ?_⟩
      · have := Memory.mem_cellsAt_bounds bs (a + 1) hc
        show a < c.1
        omega
      · intro c hc
        rcases List.mem_cons.1 hc with rfl | hc
        · exact hb
        · exact hn c hc

/-- A store keeps the canonical form. -/
theorem Memory.store_wf {m : Memory} (h : Memory.wf m) (a : Nat) (bs : List Byte) :
    Memory.wf (Memory.store m a bs) := by
  obtain ⟨hp, hn⟩ := h
  obtain ⟨cp, cn⟩ := Memory.cellsAt_wf bs a
  unfold Memory.store
  refine ⟨?_, ?_⟩
  · refine List.pairwise_append.2 ⟨List.pairwise_append.2 ⟨hp.filter _, cp, ?_⟩, hp.filter _, ?_⟩
    · intro c hc d hd
      simp only [List.mem_filter, decide_eq_true_eq] at hc
      have := Memory.mem_cellsAt_bounds bs a hd
      omega
    · intro c hc d hd
      simp only [List.mem_append, List.mem_filter, decide_eq_true_eq] at hc hd
      rcases hc with hc | hc
      · omega
      · have := Memory.mem_cellsAt_bounds bs a hc; omega
  · intro c hc
    simp only [List.mem_append, List.mem_filter] at hc
    rcases hc with (hc | hc) | hc
    · exact hn c hc.1
    · exact cn c hc
    · exact hn c hc.1

theorem Memory.store_bound {m : Memory} {n : Nat} (h : ∀ c ∈ m, c.1 < n) (a : Nat) (bs : List Byte)
    (hb : a + bs.length ≤ n) : ∀ c ∈ Memory.store m a bs, c.1 < n := by
  intro c hc
  simp only [Memory.store, List.mem_append, List.mem_filter] at hc
  rcases hc with (hc | hc) | hc
  · exact h c hc.1
  · have := Memory.mem_cellsAt_bounds bs a hc; omega
  · exact h c hc.1

/-- Two memories in canonical form that read alike everywhere are equal. -/
theorem Memory.ext_read {m m' : Memory} (h : Memory.wf m) (h' : Memory.wf m')
    (hr : ∀ a, Memory.read m a = Memory.read m' a) : m = m' := by
  induction m generalizing m' with
  | nil =>
    cases m' with
    | nil => rfl
    | cons c m' =>
      obtain ⟨k, v⟩ := c
      exact absurd (by simpa [Memory.read] using (hr k).symm) (h'.2 (k, v) (by simp))
  | cons c m ih =>
    obtain ⟨k, v⟩ := c
    have hv : v ≠ Config.unlisted := h.2 (k, v) (by simp)
    cases m' with
    | nil => exact absurd (by simpa [Memory.read] using hr k) hv
    | cons c' m' =>
      obtain ⟨k', v'⟩ := c'
      have hv' : v' ≠ Config.unlisted := h'.2 (k', v') (by simp)
      have hp := List.pairwise_cons.1 h.1
      have hp' := List.pairwise_cons.1 h'.1
      have ht : Memory.wf m := ⟨hp.2, fun c hc => h.2 c (by simp [hc])⟩
      have ht' : Memory.wf m' := ⟨hp'.2, fun c hc => h'.2 c (by simp [hc])⟩
      have hk : k = k' := by
        rcases Nat.lt_trichotomy k k' with hlt | heq | hgt
        · have := hr k
          simp only [Memory.read, if_true, show k' ≠ k by omega, if_false] at this
          rw [Memory.read_of_forall_ne m' k fun c hc => by have := hp'.1 c hc; simp only at this; omega] at this
          exact absurd this hv
        · exact heq
        · have := hr k'
          simp only [Memory.read, if_true, show k ≠ k' by omega, if_false] at this
          rw [Memory.read_of_forall_ne m k' fun c hc => by have := hp.1 c hc; simp only at this; omega] at this
          exact absurd this.symm hv'
      subst hk
      have hvv : v = v' := by simpa [Memory.read] using hr k
      subst hvv
      rw [ih ht ht' fun a => ?_]
      by_cases ha : k = a
      · subst ha
        rw [Memory.read_of_forall_ne m k fun c hc => by have := hp.1 c hc; simp only at this; omega,
          Memory.read_of_forall_ne m' k fun c hc => by have := hp'.1 c hc; simp only at this; omega]
      · simpa [Memory.read, ha] using hr a

/-! ### Buffers -/

@[simp] theorem Buffer.size_write (b : Buffer) (a : Nat) (bs : List Byte) : (b.write a bs).size = b.size := rfl

@[simp] theorem Buffer.size_ofBytes (bs : List Byte) : (Buffer.ofBytes bs).size = bs.length := rfl

@[simp] theorem Buffer.read_fresh (n a : Nat) : (Buffer.fresh n).read a = 0 := rfl

/-- Read after write. -/
theorem Buffer.read_write (b : Buffer) (a : Nat) (bs : List Byte) (x : Nat) :
    (b.write a bs).read x = if a ≤ x ∧ x < a + bs.length then bs.getD (x - a) 0 else b.read x :=
  Memory.read_store b.cells a bs x

theorem Buffer.read_ofBytes (bs : List Byte) (x : Nat) : (Buffer.ofBytes bs).read x = bs.getD x 0 := by
  have := Memory.read_cellsAt bs 0 x
  rwa [Nat.zero_add] at this

@[simp] theorem Buffer.length_bytes (b : Buffer) (a n : Nat) : (b.bytes a n).length = n := by
  simp [Buffer.bytes]

theorem Buffer.getD_bytes (b : Buffer) (a n i : Nat) (h : i < n) : (b.bytes a n).getD i 0 = b.read (a + i) := by
  simp [Buffer.bytes, List.getD_eq_getElem?_getD, h]

@[simp] theorem Buffer.getElem_bytes (b : Buffer) (a n i : Nat) (h : i < (b.bytes a n).length) :
    (b.bytes a n)[i] = b.read (a + i) := by
  simp [Buffer.bytes]

theorem Buffer.bytes_congr {b b' : Buffer} {a a' n : Nat} (h : ∀ i, i < n → b.read (a + i) = b'.read (a' + i)) :
    b.bytes a n = b'.bytes a' n := by
  apply List.ext_getElem (by simp)
  intro i h₁ h₂
  simpa using h i (by simpa using h₁)

theorem Buffer.bytes_append (b : Buffer) (a m n : Nat) : b.bytes a (m + n) = b.bytes a m ++ b.bytes (a + m) n := by
  apply List.ext_getElem (by simp)
  intro i h₁ h₂
  by_cases hi : i < m
  · simp [hi]
  · simp only [getElem_bytes, List.getElem_append, length_bytes, hi, dif_neg, not_false_eq_true]
    congr 1; omega

/-- The bytes just written, read back. -/
theorem Buffer.bytes_write_self (b : Buffer) (a : Nat) (bs : List Byte) : (b.write a bs).bytes a bs.length = bs := by
  apply List.ext_getElem (by simp)
  intro i h₁ h₂
  rw [getElem_bytes, read_write, if_pos ⟨by omega, by omega⟩]
  simp [List.getD_eq_getElem?_getD, h₂]

theorem Buffer.bytes_write_of_disjoint (b : Buffer) (a : Nat) (bs : List Byte) (x n : Nat)
    (h : x + n ≤ a ∨ a + bs.length ≤ x) : (b.write a bs).bytes x n = b.bytes x n := by
  apply bytes_congr
  intro i hi
  rw [read_write, if_neg (by omega)]

theorem Buffer.fresh_wf (n : Nat) : (Buffer.fresh n).wf := by simp [Buffer.wf, Memory.wf]

/-- A write inside a buffer keeps its canonical form. -/
theorem Buffer.write_wf {b : Buffer} (h : b.wf) (a : Nat) (bs : List Byte) (hb : a + bs.length ≤ b.size) :
    (b.write a bs).wf :=
  ⟨Memory.store_wf h.1 a bs, Memory.store_bound h.2 a bs hb⟩

theorem Buffer.ofBytes_wf (bs : List Byte) : (Buffer.ofBytes bs).wf := by
  refine ⟨Memory.cellsAt_wf bs 0, fun c hc => ?_⟩
  have := Memory.mem_cellsAt_bounds bs 0 hc
  simpa using this.2

end Sys2Proof.Machine
end

