-- ==== Sys2Proof/Laws/State.lean ====
section
/-! SUPPORT. One lemma per field and update of State, true by rfl, so that no later proof unfolds an update. -/

namespace Sys2Proof.Machine

/-! ### `accept` -/

@[simp] theorem accept_params (c : Cmd) (s : State) : (accept c s).params = s.params := rfl
@[simp] theorem accept_cmd (c : Cmd) (s : State) : (accept c s).cmd = c := rfl
@[simp] theorem accept_res (c : Cmd) (s : State) : (accept c s).res = Res.free 0 s.draws := rfl
@[simp] theorem accept_phase (c : Cmd) (s : State) : (accept c s).phase = .run := rfl
@[simp] theorem accept_work (c : Cmd) (s : State) : (accept c s).work = s.work := rfl
@[simp] theorem accept_inBuf (c : Cmd) (s : State) : (accept c s).inBuf = s.inBuf := rfl
@[simp] theorem accept_outBuf (c : Cmd) (s : State) : (accept c s).outBuf = s.outBuf := rfl
@[simp] theorem accept_fb (c : Cmd) (s : State) : (accept c s).fb = s.fb := rfl
@[simp] theorem accept_req (c : Cmd) (s : State) : (accept c s).req = s.req := rfl
@[simp] theorem accept_sink (c : Cmd) (s : State) : (accept c s).sink = s.sink := rfl
@[simp] theorem accept_resetIn (c : Cmd) (s : State) : (accept c s).resetIn = s.resetIn := rfl
@[simp] theorem accept_draws (c : Cmd) (s : State) : (accept c s).draws = s.draws + 1 := rfl

/-! ### `deliver` -/

@[simp] theorem deliver_params (r : Res) (s : State) : (deliver r s).params = s.params := rfl
@[simp] theorem deliver_cmd (r : Res) (s : State) : (deliver r s).cmd = s.cmd := rfl
@[simp] theorem deliver_res (r : Res) (s : State) : (deliver r s).res = r := rfl
@[simp] theorem deliver_phase (r : Res) (s : State) : (deliver r s).phase = .idle := rfl
@[simp] theorem deliver_work (r : Res) (s : State) : (deliver r s).work = Work.free s.params.accW s.draws := rfl
@[simp] theorem deliver_inBuf (r : Res) (s : State) : (deliver r s).inBuf = s.inBuf := rfl
@[simp] theorem deliver_outBuf (r : Res) (s : State) : (deliver r s).outBuf = s.outBuf := rfl
@[simp] theorem deliver_fb (r : Res) (s : State) : (deliver r s).fb = s.fb := rfl
@[simp] theorem deliver_req (r : Res) (s : State) : (deliver r s).req = s.req := rfl
@[simp] theorem deliver_sink (r : Res) (s : State) : (deliver r s).sink = s.sink := rfl
@[simp] theorem deliver_resetIn (r : Res) (s : State) : (deliver r s).resetIn = s.resetIn := rfl
@[simp] theorem deliver_draws (r : Res) (s : State) : (deliver r s).draws = s.draws + 1 := rfl

/-! ### `deliverValue` -/

@[simp] theorem deliverValue_params (st : BitVec 3) (v : Half) (s : State) : (deliverValue st v s).params = s.params := rfl
@[simp] theorem deliverValue_cmd (st : BitVec 3) (v : Half) (s : State) : (deliverValue st v s).cmd = s.cmd := rfl
@[simp] theorem deliverValue_res (st : BitVec 3) (v : Half) (s : State) : (deliverValue st v s).res = { resultBase st s with value := v } := rfl
@[simp] theorem deliverValue_phase (st : BitVec 3) (v : Half) (s : State) : (deliverValue st v s).phase = .idle := rfl
@[simp] theorem deliverValue_work (st : BitVec 3) (v : Half) (s : State) : (deliverValue st v s).work = Work.free s.params.accW s.draws := rfl
@[simp] theorem deliverValue_inBuf (st : BitVec 3) (v : Half) (s : State) : (deliverValue st v s).inBuf = s.inBuf := rfl
@[simp] theorem deliverValue_outBuf (st : BitVec 3) (v : Half) (s : State) : (deliverValue st v s).outBuf = s.outBuf := rfl
@[simp] theorem deliverValue_fb (st : BitVec 3) (v : Half) (s : State) : (deliverValue st v s).fb = s.fb := rfl
@[simp] theorem deliverValue_req (st : BitVec 3) (v : Half) (s : State) : (deliverValue st v s).req = s.req := rfl
@[simp] theorem deliverValue_sink (st : BitVec 3) (v : Half) (s : State) : (deliverValue st v s).sink = s.sink := rfl
@[simp] theorem deliverValue_resetIn (st : BitVec 3) (v : Half) (s : State) : (deliverValue st v s).resetIn = s.resetIn := rfl
@[simp] theorem deliverValue_draws (st : BitVec 3) (v : Half) (s : State) : (deliverValue st v s).draws = s.draws + 1 := rfl

/-! ### `deliverStatus` -/

@[simp] theorem deliverStatus_params (st : BitVec 3) (s : State) : (deliverStatus st s).params = s.params := rfl
@[simp] theorem deliverStatus_cmd (st : BitVec 3) (s : State) : (deliverStatus st s).cmd = s.cmd := rfl
@[simp] theorem deliverStatus_res (st : BitVec 3) (s : State) : (deliverStatus st s).res = resultBase st s := rfl
@[simp] theorem deliverStatus_phase (st : BitVec 3) (s : State) : (deliverStatus st s).phase = .idle := rfl
@[simp] theorem deliverStatus_work (st : BitVec 3) (s : State) : (deliverStatus st s).work = Work.free s.params.accW s.draws := rfl
@[simp] theorem deliverStatus_inBuf (st : BitVec 3) (s : State) : (deliverStatus st s).inBuf = s.inBuf := rfl
@[simp] theorem deliverStatus_outBuf (st : BitVec 3) (s : State) : (deliverStatus st s).outBuf = s.outBuf := rfl
@[simp] theorem deliverStatus_fb (st : BitVec 3) (s : State) : (deliverStatus st s).fb = s.fb := rfl
@[simp] theorem deliverStatus_req (st : BitVec 3) (s : State) : (deliverStatus st s).req = s.req := rfl
@[simp] theorem deliverStatus_sink (st : BitVec 3) (s : State) : (deliverStatus st s).sink = s.sink := rfl
@[simp] theorem deliverStatus_resetIn (st : BitVec 3) (s : State) : (deliverStatus st s).resetIn = s.resetIn := rfl
@[simp] theorem deliverStatus_draws (st : BitVec 3) (s : State) : (deliverStatus st s).draws = s.draws + 1 := rfl

/-! ### `illegalCommand` -/

@[simp] theorem illegalCommand_params (c : Cmd) (s : State) : (illegalCommand c s).params = s.params := rfl
@[simp] theorem illegalCommand_cmd (c : Cmd) (s : State) : (illegalCommand c s).cmd = c := rfl
@[simp] theorem illegalCommand_res (c : Cmd) (s : State) : (illegalCommand c s).res = resultBase stIllegalCommand (accept c s) := rfl
@[simp] theorem illegalCommand_phase (c : Cmd) (s : State) : (illegalCommand c s).phase = .idle := rfl
@[simp] theorem illegalCommand_work (c : Cmd) (s : State) : (illegalCommand c s).work = Work.free s.params.accW (s.draws + 1) := rfl
@[simp] theorem illegalCommand_inBuf (c : Cmd) (s : State) : (illegalCommand c s).inBuf = s.inBuf := rfl
@[simp] theorem illegalCommand_outBuf (c : Cmd) (s : State) : (illegalCommand c s).outBuf = s.outBuf := rfl
@[simp] theorem illegalCommand_fb (c : Cmd) (s : State) : (illegalCommand c s).fb = s.fb := rfl
@[simp] theorem illegalCommand_req (c : Cmd) (s : State) : (illegalCommand c s).req = s.req := rfl
@[simp] theorem illegalCommand_sink (c : Cmd) (s : State) : (illegalCommand c s).sink = s.sink := rfl
@[simp] theorem illegalCommand_resetIn (c : Cmd) (s : State) : (illegalCommand c s).resetIn = s.resetIn := rfl
@[simp] theorem illegalCommand_draws (c : Cmd) (s : State) : (illegalCommand c s).draws = s.draws + 1 + 1 := rfl

/-! ### `callSink` -/

@[simp] theorem callSink_params (off n : Nat) (s : State) : (callSink off n s).params = s.params := rfl
@[simp] theorem callSink_cmd (off n : Nat) (s : State) : (callSink off n s).cmd = s.cmd := rfl
@[simp] theorem callSink_res (off n : Nat) (s : State) : (callSink off n s).res = s.res := rfl
@[simp] theorem callSink_phase (off n : Nat) (s : State) : (callSink off n s).phase = .sinkWait := rfl
@[simp] theorem callSink_inBuf (off n : Nat) (s : State) : (callSink off n s).inBuf = s.inBuf := rfl
@[simp] theorem callSink_outBuf (off n : Nat) (s : State) : (callSink off n s).outBuf = s.outBuf := rfl
@[simp] theorem callSink_fb (off n : Nat) (s : State) : (callSink off n s).fb = s.fb := rfl
@[simp] theorem callSink_req (off n : Nat) (s : State) : (callSink off n s).req = s.req := rfl
@[simp] theorem callSink_sink (off n : Nat) (s : State) : (callSink off n s).sink = s.sink := rfl
@[simp] theorem callSink_resetIn (off n : Nat) (s : State) : (callSink off n s).resetIn = s.resetIn := rfl
@[simp] theorem callSink_draws (off n : Nat) (s : State) : (callSink off n s).draws = s.draws := rfl

/-! ### `reqFillIn` -/

@[simp] theorem reqFillIn_params (bs : List Byte) (s : State) : (reqFillIn bs s).params = s.params := rfl
@[simp] theorem reqFillIn_cmd (bs : List Byte) (s : State) : (reqFillIn bs s).cmd = s.cmd := rfl
@[simp] theorem reqFillIn_res (bs : List Byte) (s : State) : (reqFillIn bs s).res = s.res := rfl
@[simp] theorem reqFillIn_phase (bs : List Byte) (s : State) : (reqFillIn bs s).phase = s.phase := rfl
@[simp] theorem reqFillIn_work (bs : List Byte) (s : State) : (reqFillIn bs s).work = s.work := rfl
@[simp] theorem reqFillIn_inBuf (bs : List Byte) (s : State) : (reqFillIn bs s).inBuf = Buffer.ofBytes bs := rfl
@[simp] theorem reqFillIn_outBuf (bs : List Byte) (s : State) : (reqFillIn bs s).outBuf = s.outBuf := rfl
@[simp] theorem reqFillIn_fb (bs : List Byte) (s : State) : (reqFillIn bs s).fb = s.fb := rfl
@[simp] theorem reqFillIn_req (bs : List Byte) (s : State) : (reqFillIn bs s).req = s.req := rfl
@[simp] theorem reqFillIn_sink (bs : List Byte) (s : State) : (reqFillIn bs s).sink = s.sink := rfl
@[simp] theorem reqFillIn_resetIn (bs : List Byte) (s : State) : (reqFillIn bs s).resetIn = s.resetIn := rfl
@[simp] theorem reqFillIn_draws (bs : List Byte) (s : State) : (reqFillIn bs s).draws = s.draws := rfl

/-! ### `reqProvideOut` -/

@[simp] theorem reqProvideOut_params (bs : List Byte) (s : State) : (reqProvideOut bs s).params = s.params := rfl
@[simp] theorem reqProvideOut_cmd (bs : List Byte) (s : State) : (reqProvideOut bs s).cmd = s.cmd := rfl
@[simp] theorem reqProvideOut_res (bs : List Byte) (s : State) : (reqProvideOut bs s).res = s.res := rfl
@[simp] theorem reqProvideOut_phase (bs : List Byte) (s : State) : (reqProvideOut bs s).phase = s.phase := rfl
@[simp] theorem reqProvideOut_work (bs : List Byte) (s : State) : (reqProvideOut bs s).work = s.work := rfl
@[simp] theorem reqProvideOut_inBuf (bs : List Byte) (s : State) : (reqProvideOut bs s).inBuf = s.inBuf := rfl
@[simp] theorem reqProvideOut_outBuf (bs : List Byte) (s : State) : (reqProvideOut bs s).outBuf = Buffer.ofBytes bs := rfl
@[simp] theorem reqProvideOut_fb (bs : List Byte) (s : State) : (reqProvideOut bs s).fb = s.fb := rfl
@[simp] theorem reqProvideOut_req (bs : List Byte) (s : State) : (reqProvideOut bs s).req = s.req := rfl
@[simp] theorem reqProvideOut_sink (bs : List Byte) (s : State) : (reqProvideOut bs s).sink = s.sink := rfl
@[simp] theorem reqProvideOut_resetIn (bs : List Byte) (s : State) : (reqProvideOut bs s).resetIn = s.resetIn := rfl
@[simp] theorem reqProvideOut_draws (bs : List Byte) (s : State) : (reqProvideOut bs s).draws = s.draws := rfl

/-! ### `blockReset` -/

@[simp] theorem blockReset_params (s : State) : (blockReset s).params = s.params := rfl
@[simp] theorem blockReset_cmd (s : State) : (blockReset s).cmd = Cmd.free s.draws := rfl
@[simp] theorem blockReset_res (s : State) : (blockReset s).res = Res.free 0 s.draws := rfl
@[simp] theorem blockReset_phase (s : State) : (blockReset s).phase = .idle := rfl
@[simp] theorem blockReset_work (s : State) : (blockReset s).work = Work.free s.params.accW s.draws := rfl
@[simp] theorem blockReset_inBuf (s : State) : (blockReset s).inBuf = s.inBuf := rfl
@[simp] theorem blockReset_outBuf (s : State) : (blockReset s).outBuf = s.outBuf := rfl
@[simp] theorem blockReset_fb (s : State) : (blockReset s).fb = s.fb := rfl
@[simp] theorem blockReset_req (s : State) : (blockReset s).req = s.req := rfl
@[simp] theorem blockReset_sink (s : State) : (blockReset s).sink = if s.phase = .sinkWait then s.sink.tail else s.sink := rfl
@[simp] theorem blockReset_resetIn (s : State) : (blockReset s).resetIn = false := rfl
@[simp] theorem blockReset_draws (s : State) : (blockReset s).draws = s.draws + 1 := rfl

/-! ### The transient registers at a sink call -/

@[simp] theorem callSink_cap (off n : Nat) (s : State) : (callSink off n s).work.cap = s.work.cap := rfl
@[simp] theorem callSink_off (off n : Nat) (s : State) : (callSink off n s).work.off = s.work.off := rfl
@[simp] theorem callSink_n (off n : Nat) (s : State) : (callSink off n s).work.n = BitVec.ofNat 16 n := rfl
@[simp] theorem callSink_mf (off n : Nat) (s : State) : (callSink off n s).work.mf = sliceMf off n s.cmd.len.toNat := rfl
@[simp] theorem callSink_cnt (off n : Nat) (s : State) : (callSink off n s).work.cnt = s.work.cnt + 1 := rfl
@[simp] theorem callSink_fbLen (off n : Nat) (s : State) :
    (callSink off n s).work.fbLen = BitVec.ofNat 16 (Config.hdrLen + n) := rfl
@[simp] theorem callSink_acc (off n : Nat) (s : State) :
    (callSink off n s).work.acc = sum16Acc s.params.accW (fragHeaderWith 0 s.params s.cmd off n).toList := rfl

/-! ### Result records -/

@[simp] theorem resultBase_done (st : BitVec 3) (s : State) : (resultBase st s).done = 1 := rfl
@[simp] theorem resultBase_status (st : BitVec 3) (s : State) : (resultBase st s).status = st := rfl
@[simp] theorem free_done (d : BitVec 1) (k : Nat) : (Res.free d k).done = d := rfl

@[simp] theorem withView_done (h : List Byte) (r : Res) : (withView h r).done = r.done := rfl
@[simp] theorem withView_status (h : List Byte) (r : Res) : (withView h r).status = r.status := rfl

end Sys2Proof.Machine
end

