-- ==== Sys2Proof/Laws/Ops.lean ====
section
/-! SUPPORT. What each shared operation can do, said once: if it answers a next state, then which; and when it
surely goes on. -/

namespace Sys2Proof.Machine

/-! ### Accesses -/

theorem readIn_of_le {a n : Nat} {s : State} (k : List Byte → Answer) (h : a + n ≤ s.inBuf.size) :
    readIn a n s k = k (s.inBuf.bytes a n) := if_pos h

theorem readIn_next {a n : Nat} {s t : State} {k : List Byte → Answer} :
    readIn a n s k = .next t ↔ a + n ≤ s.inBuf.size ∧ k (s.inBuf.bytes a n) = .next t := by
  unfold readIn; split <;> simp [*]

theorem writeOut_of_le {a : Nat} {bs : List Byte} {s : State} (k : State → Answer)
    (h : a + bs.length ≤ s.outBuf.size) :
    writeOut a bs s k = k { s with outBuf := s.outBuf.write a bs } := if_pos h

theorem writeOut_next {a : Nat} {bs : List Byte} {s t : State} {k : State → Answer} :
    writeOut a bs s k = .next t ↔
      a + bs.length ≤ s.outBuf.size ∧ k { s with outBuf := s.outBuf.write a bs } = .next t := by
  unfold writeOut; split <;> simp [*]

theorem writeFb_of_le {a : Nat} {bs : List Byte} {s : State} (k : State → Answer)
    (h : a + bs.length ≤ s.fb.size) :
    writeFb a bs s k = k { s with fb := s.fb.write a bs } := if_pos h

theorem writeFb_next {a : Nat} {bs : List Byte} {s t : State} {k : State → Answer} :
    writeFb a bs s k = .next t ↔
      a + bs.length ≤ s.fb.size ∧ k { s with fb := s.fb.write a bs } = .next t := by
  unfold writeFb; split <;> simp [*]

/-! ### Launch preconditions -/

theorem needIn_of_le {s : State} (k : Answer) (h : s.cmd.len.toNat ≤ s.inBuf.size) : needIn s k = k :=
  if_neg (by omega)

theorem needIn_next {s t : State} {k : Answer} :
    needIn s k = .next t ↔ s.cmd.len.toNat ≤ s.inBuf.size ∧ k = .next t := by
  unfold needIn
  split
  · simp; omega
  · rename_i h; simp [Nat.le_of_not_lt h]

theorem needOut_of_le {s : State} (k : Answer) (h : s.cmd.aux.toNat ≤ s.outBuf.size) : needOut s k = k :=
  if_neg (by omega)

theorem needOut_next {s t : State} {k : Answer} :
    needOut s k = .next t ↔ s.cmd.aux.toNat ≤ s.outBuf.size ∧ k = .next t := by
  unfold needOut
  split
  · simp; omega
  · rename_i h; simp [Nat.le_of_not_lt h]

/-! ### The rounds of a fragmentation run -/

/-- FB and the sink call as one round leaves them. -/
def prepared (s : State) : State :=
  let off := s.work.off.toNat
  let n := sliceLen s.work.cap.toNat off s.cmd.len.toNat
  callSink off n
    { s with fb := (s.fb.write 0 (fragHeader s.params s.cmd off n).toList).write Config.hdrLen (s.inBuf.bytes off n) }

/-- A round that goes on hands over the fragment; it goes on when the slice lies in IN and the fragment fits FB. -/
theorem fragPrepare_next {s t : State} :
    fragPrepare s = .next t ↔
      (s.work.off.toNat + sliceLen s.work.cap.toNat s.work.off.toNat s.cmd.len.toNat ≤ s.inBuf.size
        ∧ Config.hdrLen + sliceLen s.work.cap.toNat s.work.off.toNat s.cmd.len.toNat ≤ s.fb.size)
        ∧ t = prepared s := by
  unfold fragPrepare prepared
  simp only [readIn_next, writeFb_next, Vector.length_toList, Buffer.size_write, Buffer.length_bytes,
    Host.Outcome.next.injEq, eq_comm (a := t)]
  constructor
  · rintro ⟨h₁, -, h₂, h₃⟩; exact ⟨⟨h₁, h₂⟩, h₃⟩
  · rintro ⟨⟨h₁, h₂⟩, h₃⟩
    have e : Config.hdrLen = 20 := rfl
    exact ⟨h₁, by omega, h₂, h₃⟩

/-- The head of the loop hands over another fragment or completes with the count. -/
theorem fragNext_next {s t : State} :
    fragNext s = .next t ↔
      s.cmd.len.toNat ≤ s.inBuf.size ∧
        ((s.work.off.toNat < s.cmd.len.toNat
            ∧ Config.hdrLen + sliceLen s.work.cap.toNat s.work.off.toNat s.cmd.len.toNat ≤ s.fb.size
            ∧ t = prepared s)
          ∨ (s.cmd.len.toNat ≤ s.work.off.toNat ∧ t = deliverValue stOk s.work.cnt s)) := by
  unfold fragNext
  rw [needIn_next]
  refine and_congr_right fun hin => ?_
  split
  · rename_i h
    rw [fragPrepare_next]
    have : s.work.off.toNat + sliceLen s.work.cap.toNat s.work.off.toNat s.cmd.len.toNat ≤ s.inBuf.size := by
      unfold sliceLen; omega
    simp only [this, true_and, h, Nat.not_le.2 h, false_and, or_false]
  · rename_i h
    simp only [h, false_and, false_or, Nat.le_of_not_lt h, true_and, Host.Outcome.next.injEq]
    exact eq_comm

end Sys2Proof.Machine
end

