-- ==== Sys2Proof/Laws/Exec.lean ====
section
/-! SUPPORT. What each command, and one step, can do when it answers a next state: one inversion lemma per meaning
and one for `step`, from which every later claim is a small case analysis. -/

namespace Sys2Proof.Machine

/-! ### The commands -/

theorem execCsum_next {o : Operands} {s t : State} :
    exec (.csum o) s = .next t ↔
      o.len.toNat ≤ s.inBuf.size ∧
        t = deliverValue stOk (csum16 s.params.accW (s.inBuf.bytes 0 o.len.toNat)) (accept { o with op := 1 } s) := by
  simp only [exec, execCsum, needIn_next, readIn_next, accept_cmd, accept_inBuf, accept_params,
    Host.Outcome.next.injEq, eq_comm (b := t)]
  constructor
  · rintro ⟨a, -, c⟩; exact ⟨a, c⟩
  · rintro ⟨a, c⟩; exact ⟨a, by omega, c⟩

theorem execBuild_next {o : Operands} {s t : State} :
    exec (.build o) s = .next t ↔
      t = deliver
        { resultBase stOk (accept { o with op := 2 } s) with hdr := unfragmentedHeader s.params o o.len }
        (accept { o with op := 2 } s) := by
  simp only [exec, execBuild, accept_params, Host.Outcome.next.injEq, eq_comm (b := t)]

/-- OUT as a successful ASSEMBLE leaves it. -/
def assembled (o : Operands) (s : State) : Buffer :=
  (s.outBuf.write Config.hdrLen (s.inBuf.bytes 0 o.len.toNat)).write 0
    (unfragmentedHeader s.params o (BitVec.ofNat 16 (Config.hdrLen + o.len.toNat))).toList

theorem execAssemble_next {o : Operands} {s t : State} :
    exec (.assemble o) s = .next t ↔
      o.len.toNat ≤ s.inBuf.size ∧ o.aux.toNat ≤ s.outBuf.size ∧
        if 65535 < 20 + o.len.toNat then t = deliverValue stLengthRange 0 (accept { o with op := 3 } s)
        else if o.aux.toNat < 20 + o.len.toNat then t = deliverValue stBufferTooSmall 0 (accept { o with op := 3 } s)
        else
          t = deliverValue stOk (BitVec.ofNat 16 (20 + o.len.toNat))
            { accept { o with op := 3 } s with outBuf := assembled o s } := by
  simp only [exec, execAssemble, needIn_next, needOut_next, accept_cmd, accept_inBuf, accept_outBuf, accept_params,
    gt_iff_lt]
  refine and_congr_right fun h1 => and_congr_right fun h2 => ?_
  by_cases h3 : 65535 < 20 + o.len.toNat
  · simp [h3, eq_comm]
  by_cases h4 : o.aux.toNat < 20 + o.len.toNat
  · simp [h3, h4, eq_comm]
  simp only [h3, h4, if_false]
  rw [readIn_of_le _ (by simp only [accept_inBuf]; omega),
    writeOut_of_le _ (by
      simp only [accept_inBuf, accept_outBuf, Buffer.length_bytes]
      show 20 + _ ≤ _; omega),
    writeOut_of_le _ (by simp only [accept_outBuf, Buffer.size_write, Vector.length_toList]; omega)]
  simp only [Host.Outcome.next.injEq, eq_comm (b := t)]
  rfl

theorem execParse_next {o : Operands} {s t : State} :
    exec (.parse o) s = .next t ↔
      o.len.toNat ≤ s.inBuf.size ∧
        if o.len.toNat < 20 then t = parseInvalid (accept { o with op := 4 } s)
        else if ¬ byte0Valid (s.inBuf.read 0) o.len.toNat then t = parseInvalid (accept { o with op := 4 } s)
        else if ¬ lengthsValid (hlenOf (s.inBuf.read 0))
            (totalLenOf (s.inBuf.bytes 0 (hlenOf (s.inBuf.read 0)))).toNat o.len.toNat then
          t = parseInvalid (accept { o with op := 4 } s)
        else t = parseValid (s.inBuf.bytes 0 (hlenOf (s.inBuf.read 0))) (accept { o with op := 4 } s) := by
  simp only [exec, execParse, needIn_next, accept_cmd, accept_inBuf]
  refine and_congr_right fun h1 => ?_
  by_cases h2 : o.len.toNat < 20
  · simp [h2, eq_comm]
  have hb : (s.inBuf.bytes 0 1).headD 0 = s.inBuf.read 0 := by simp [Buffer.bytes, List.range_succ]
  simp only [h2, if_false]
  rw [readIn_of_le _ (by simp only [accept_inBuf]; omega), accept_inBuf, hb]
  by_cases h3 : byte0Valid (s.inBuf.read 0) o.len.toNat = true
  · have hle : hlenOf (s.inBuf.read 0) ≤ o.len.toNat := by
      simp only [byte0Valid, Bool.and_eq_true, decide_eq_true_eq] at h3
      exact h3.2
    simp only [h3, not_true_eq_false, if_false]
    rw [readIn_of_le _ (by simp only [accept_inBuf]; omega), accept_inBuf]
    split <;> simp [eq_comm]
  · simp [h3, eq_comm]

/-- The state in which FRAG enters its loop. -/
def fragStarted (o : Operands) (s : State) : State :=
  { accept { o with op := 5 } s with work := { s.work with cap := capacity o.aux, off := 0, cnt := 0 } }

theorem execFrag_next {o : Operands} {s t : State} :
    exec (.frag o) s = .next t ↔
      o.len.toNat ≤ s.inBuf.size ∧
        if o.aux.toNat < s.params.mtuMin then t = deliverValue stMtuTooSmall 0 (accept { o with op := 5 } s)
        else fragNext (fragStarted o s) = .next t := by
  simp only [exec, execFrag, needIn_next, accept_cmd, accept_inBuf, accept_params]
  refine and_congr_right fun h1 => ?_
  by_cases h2 : o.aux.toNat < s.params.mtuMin
  · simp [h2, eq_comm]
  · simp only [h2, if_false]; rfl

/-! ### One step -/

theorem stepIdle_next {s t : State} :
    stepIdle s = .next t ↔
      (s.req = [] ∧ t = s)
        ∨ (∃ bs rest, s.req = .fillIn bs :: rest ∧ t = reqFillIn bs { s with req := rest })
        ∨ (∃ bs rest, s.req = .provideOut bs :: rest ∧ t = reqProvideOut bs { s with req := rest })
        ∨ (∃ d rest i, s.req = .present d :: rest ∧ decode d = .ok i ∧ exec i { s with req := rest } = .next t)
        ∨ (∃ d rest r, s.req = .present d :: rest ∧ decode d = .error r
            ∧ t = illegalCommand { d.operands with op := d.op } { s with req := rest }) := by
  unfold stepIdle
  split
  · rename_i hq; simp only [hq, Host.Outcome.next.injEq, eq_comm (b := t)]; simp
  · rename_i hq; simp only [hq, Host.Outcome.next.injEq, eq_comm (b := t)]; simp
  · rename_i hq; simp only [hq, Host.Outcome.next.injEq, eq_comm (b := t)]; simp
  · rename_i d rest hq
    unfold present
    cases hd : decode d <;> simp only [hq, Host.Outcome.next.injEq, eq_comm (b := t)] <;> simp [hd]

theorem stepSinkWait_next {s t : State} :
    stepSinkWait s = .next t ↔
      (s.sink = [] ∧ t = s) ∨ ∃ rc rest, s.sink = rc :: rest ∧ t = fragAnswer rc { s with sink := rest } := by
  unfold stepSinkWait
  split <;> rename_i hs <;> simp only [hs, Host.Outcome.next.injEq, eq_comm (b := t)] <;> simp

/-- Everything one step can do. -/
theorem step_next {s t : State} :
    step s = .next t ↔
      (s.resetIn = true ∧ t = blockReset s)
        ∨ (s.resetIn = false ∧ s.phase = .idle ∧ stepIdle s = .next t)
        ∨ (s.resetIn = false ∧ s.phase = .run ∧ fragNext s = .next t)
        ∨ (s.resetIn = false ∧ s.phase = .sinkWait ∧ stepSinkWait s = .next t) := by
  unfold step
  split
  · rename_i hr; simp only [hr, Host.Outcome.next.injEq, eq_comm (b := t)]; simp
  · rename_i hr
    split <;> rename_i hp <;> simp [hr, hp]

/-- The running of several steps, one step at a time. -/
theorem run_succ (k : Nat) (s : State) :
    Host.Core.run Sys2Proof.core (k + 1) s =
      match step s with
      | .next t => Host.Core.run Sys2Proof.core k t
      | .fault r => .fault r
      | .refused r => .refused r := by
  have h : Sys2Proof.core.step s = step s := rfl
  cases hs : step s <;> rw [hs] at h <;> simp only [Host.Core.run, h]

theorem run_succ_of_next {k : Nat} {s t : State} (h : step s = .next t) :
    Host.Core.run Sys2Proof.core (k + 1) s = Host.Core.run Sys2Proof.core k t := by
  rw [run_succ, h]

end Sys2Proof.Machine
end

