-- ==== Sys2Proof/Laws/Operands.lean ====
section
/-! SUPPORT. Laws of the operand forms: byte order as arithmetic, the flags word, and the bytes of a header. -/

namespace Sys2Proof.Machine

/-! ### Byte order (R7, R31) -/

/-- Concatenation of bits (R7) as arithmetic. -/
theorem toNat_append_eq {m n : Nat} (a : BitVec m) (b : BitVec n) : (a ++ b).toNat = a.toNat * 2 ^ n + b.toNat := by
  rw [BitVec.toNat_append, Nat.shiftLeft_eq, Nat.mul_comm, ← Nat.two_pow_add_eq_or_of_lt b.isLt, Nat.mul_comm]

/-- `be16` as R7 writes it. -/
theorem be16_toNat (b : List Byte) (i : Nat) :
    (be16 b i).toNat = (b.getD i 0).toNat * 256 + (b.getD (i + 1) 0).toNat := toNat_append_eq _ _

/-- `be32` as R7 writes it. -/
theorem be32_toNat (b : List Byte) (i : Nat) :
    (be32 b i).toNat = (b.getD i 0).toNat * 2 ^ 24 + (b.getD (i + 1) 0).toNat * 2 ^ 16
      + (b.getD (i + 2) 0).toNat * 2 ^ 8 + (b.getD (i + 3) 0).toNat := by
  unfold be32
  rw [toNat_append_eq, toNat_append_eq, toNat_append_eq]
  omega

theorem byte16_zero_toNat (v : Half) : (byte16 v 0).toNat = v.toNat / 256 := by
  have := v.isLt
  simp only [byte16, BitVec.extractLsb'_toNat, Nat.shiftRight_eq_div_pow]
  omega

theorem byte16_one_toNat (v : Half) : (byte16 v 1).toNat = v.toNat % 256 := by
  simp [byte16, BitVec.extractLsb'_toNat]

/-- `put16` then `be16`. -/
theorem byte16_pair (v : Half) : (byte16 v 0).toNat * 256 + (byte16 v 1).toNat = v.toNat := by
  rw [byte16_zero_toNat, byte16_one_toNat]; omega

theorem byte32_toNat (v : Word) (k : Nat) : (byte32 v k).toNat = v.toNat / 2 ^ (8 * (3 - k)) % 256 := by
  simp [byte32, BitVec.extractLsb'_toNat, Nat.shiftRight_eq_div_pow]

/-- `put32` then `be32`. -/
theorem byte32_quad (v : Word) :
    (byte32 v 0).toNat * 2 ^ 24 + (byte32 v 1).toNat * 2 ^ 16 + (byte32 v 2).toNat * 2 ^ 8 + (byte32 v 3).toNat
      = v.toNat := by
  have := v.isLt
  simp only [byte32_toNat]
  omega

/-! ### The flags and fragment-offset word (R52) -/

theorem flagsWord_toNat (df mf : BitVec 1) (fragOff : BitVec 13) :
    (flagsWord df mf fragOff).toNat = df.toNat * 2 ^ 14 + mf.toNat * 2 ^ 13 + fragOff.toNat := by
  unfold flagsWord
  rw [toNat_append_eq, toNat_append_eq, toNat_append_eq]
  simp
  omega

/-! ### The bytes of a header (R50) -/

section
variable (csum : Half) (tos : Byte) (totalLen id : Half) (df mf : BitVec 1) (fragOff : BitVec 13) (ttl proto : Byte)
  (src dst : Word)

theorem headerWith_toList :
    (headerWith csum tos totalLen id df mf fragOff ttl proto src dst).toList =
      [0x45, tos, byte16 totalLen 0, byte16 totalLen 1, byte16 id 0, byte16 id 1,
        byte16 (flagsWord df mf fragOff) 0, byte16 (flagsWord df mf fragOff) 1, ttl, proto,
        byte16 csum 0, byte16 csum 1, byte32 src 0, byte32 src 1, byte32 src 2, byte32 src 3,
        byte32 dst 0, byte32 dst 1, byte32 dst 2, byte32 dst 3] := rfl

/-- Zeroing the checksum field of a header gives the header it was computed over (R90). -/
theorem zeroChecksum_headerWith :
    zeroChecksum (headerWith csum tos totalLen id df mf fragOff ttl proto src dst).toList =
      (headerWith 0 tos totalLen id df mf fragOff ttl proto src dst).toList := rfl

end

end Sys2Proof.Machine
end

