-- ==== Sys2Proof/Laws/Fragment.lean ====
section
/-! SUPPORT. Laws of a fragmentation run: the capacity as arithmetic, and what one round leaves in FB and hands to
the SINK. -/

namespace Sys2Proof.Machine

/-- The capacity as R127 writes it. -/
theorem capacity_toNat (m : Half) (h : 20 ≤ m.toNat) : (capacity m).toNat = 8 * ((m.toNat - 20) / 8) := by
  have key : ∀ x : Half, (x &&& 65528#16).toNat = 8 * (x.toNat / 8) := by
    intro x
    have hx : x &&& 65528#16 = (x >>> 3) <<< 3 := by
      apply BitVec.eq_of_getLsbD_eq
      intro i hi
      interval_cases i <;> simp
    have := x.isLt
    rw [hx, BitVec.toNat_shiftLeft, BitVec.toNat_ushiftRight, Nat.shiftLeft_eq, Nat.shiftRight_eq_div_pow]
    omega
  have := m.isLt
  rw [capacity, show (0xFFF8 : Half) = 65528#16 from rfl, key, BitVec.toNat_sub]
  simp
  omega

/-- Every byte of FB after a round. -/
theorem prepared_read (s : State) (a : Nat) :
    (prepared s).fb.read a =
      if a < 20 then
        (fragHeader s.params s.cmd s.work.off.toNat
          (sliceLen s.work.cap.toNat s.work.off.toNat s.cmd.len.toNat)).toList.getD a 0
      else if a < 20 + sliceLen s.work.cap.toNat s.work.off.toNat s.cmd.len.toNat then
        s.inBuf.read (s.work.off.toNat + (a - 20))
      else s.fb.read a := by
  generalize hn : sliceLen s.work.cap.toNat s.work.off.toNat s.cmd.len.toNat = n
  simp only [prepared, callSink_fb, hn]
  have e : Config.hdrLen = 20 := rfl
  rw [Buffer.read_write, Buffer.read_write]
  simp only [Vector.length_toList, Buffer.length_bytes, e]
  by_cases h : a < 20
  · rw [if_neg (by omega), if_pos (by omega), if_pos h]; rfl
  · rw [if_neg h]
    by_cases h2 : a < 20 + n
    · rw [if_pos (by omega), if_pos h2, Buffer.getD_bytes _ _ _ _ (by omega)]
    · rw [if_neg (by omega), if_neg (by omega), if_neg h2]

theorem prepared_fbLen (s : State) (h : s.work.cap.toNat ≤ 65512) :
    (prepared s).work.fbLen.toNat = 20 + sliceLen s.work.cap.toNat s.work.off.toNat s.cmd.len.toNat := by
  simp only [prepared, callSink_fbLen]
  have : sliceLen s.work.cap.toNat s.work.off.toNat s.cmd.len.toNat ≤ 65512 := by unfold sliceLen; omega
  show (BitVec.ofNat 16 (20 + _)).toNat = _
  rw [BitVec.toNat_ofNat, Nat.mod_eq_of_lt (by omega)]

/-- The fragment of a round, exactly: header, then slice. -/
theorem prepared_bytes (s : State) (h : s.work.cap.toNat ≤ 65512) :
    (prepared s).fb.bytes 0 (prepared s).work.fbLen.toNat =
      (fragHeader s.params s.cmd s.work.off.toNat
          (sliceLen s.work.cap.toNat s.work.off.toNat s.cmd.len.toNat)).toList
        ++ s.inBuf.bytes s.work.off.toNat (sliceLen s.work.cap.toNat s.work.off.toNat s.cmd.len.toNat) := by
  rw [prepared_fbLen s h, Buffer.bytes_append]
  congr 1
  · apply List.ext_getElem
    · simp
    · intro i h1 h2
      have : i < 20 := by simpa using h1
      simp only [Buffer.getElem_bytes, Nat.zero_add, prepared_read]
      rw [if_pos this]
      simp only [List.getD_eq_getElem?_getD, List.getElem?_eq_getElem h2, Option.getD_some]
  · apply Buffer.bytes_congr
    intro i hi
    rw [prepared_read, if_neg (by omega), if_pos (by omega)]
    congr 1
    omega

theorem prepared_sinkCall (s : State) : (prepared s).sinkCall =
    some ((prepared s).fb.bytes 0 (prepared s).work.fbLen.toNat) := rfl

end Sys2Proof.Machine
end

