-- ==== Sys2Proof/Laws/Header.lean ====
section
/-! SUPPORT. Laws of the header codec: every header the encoder makes has the fields it was given, what a successful
ASSEMBLE leaves in OUT, and PARSE's outcome in the terms of R112. -/

namespace Sys2Proof.Machine

theorem bit_toNat (x : BitVec 1) : x.toNat = (decide (x = 1)).toNat := by
  revert x; decide

/-- A header made by `EncodeHeader` (R90). -/
theorem encodeHeader_fields (w : Nat) (tos : Byte) (totalLen id : Half) (df mf : BitVec 1) (fragOff : BitVec 13)
    (ttl proto : Byte) (src dst : Word) :
    HeaderFields w (encodeHeader w tos totalLen id df mf fragOff ttl proto src dst).toList tos totalLen.toNat id
      (decide (df = 1)) (decide (mf = 1)) fragOff.toNat ttl proto src dst where
  length := by simp
  byte0 := rfl
  tos := rfl
  totalLen := byte16_pair totalLen
  id := byte16_pair id
  flags := by rw [← bit_toNat, ← bit_toNat, ← flagsWord_toNat]; exact byte16_pair _
  fragOff := by have := fragOff.isLt; omega
  ttl := rfl
  proto := rfl
  src := byte32_quad src
  dst := byte32_quad dst
  checksum := byte16_pair _

/-- Every byte of OUT after a successful ASSEMBLE (R96). -/
theorem assembled_read (o : Operands) (s : State) (a : Nat) :
    (assembled o s).read a =
      if a < 20 then (unfragmentedHeader s.params o (BitVec.ofNat 16 (20 + o.len.toNat))).toList.getD a 0
      else if a < 20 + o.len.toNat then s.inBuf.read (a - 20) else s.outBuf.read a := by
  have e : Config.hdrLen = 20 := rfl
  unfold assembled
  rw [Buffer.read_write, Buffer.read_write]
  simp only [Vector.length_toList, Buffer.length_bytes, e]
  by_cases h : a < 20
  · simp [h]
  · by_cases h2 : a < 20 + o.len.toNat
    · rw [if_neg (by omega), if_pos (by omega), if_neg h, if_pos h2, Buffer.getD_bytes _ _ _ _ (by omega),
        Nat.zero_add]
    · simp [h, h2]

/-! ### PARSE -/

theorem versionOf_toNat (b : Byte) : (versionOf b).toNat = b.toNat / 16 := by
  have := b.isLt
  simp only [versionOf, BitVec.extractLsb'_toNat, Nat.shiftRight_eq_div_pow]
  omega

theorem ihlOf_toNat (b : Byte) : (ihlOf b).toNat = b.toNat % 16 := by
  simp [ihlOf, BitVec.extractLsb'_toNat]

theorem hlenOf_eq (b : Byte) : hlenOf b = 4 * (b.toNat % 16) := by rw [hlenOf, ihlOf_toNat]

theorem byte0Valid_iff (b : Byte) (len : Nat) :
    byte0Valid b len = true ↔ b.toNat / 16 = 4 ∧ 20 ≤ 4 * (b.toNat % 16) ∧ 4 * (b.toNat % 16) ≤ len := by
  simp only [byte0Valid, Bool.and_eq_true, decide_eq_true_eq, beq_iff_eq, hlenOf_eq, and_assoc, ← versionOf_toNat,
    ← BitVec.toNat_inj]
  rfl

theorem totalLenOf_bytes (b : Buffer) (n : Nat) (h : 4 ≤ n) :
    (totalLenOf (b.bytes 0 n)).toNat = (b.read 2).toNat * 256 + (b.read 3).toNat := by
  rw [totalLenOf, be16_toNat, Buffer.getD_bytes _ _ _ _ (by omega), Buffer.getD_bytes _ _ _ _ (by omega)]

/-- PARSE's two outcomes, told apart by R112. -/
theorem execParse_next_iff {o : Operands} {s t : State} :
    exec (.parse o) s = .next t ↔
      o.len.toNat ≤ s.inBuf.size ∧
        ((¬ StructurallyValid s.inBuf o.len.toNat ∧ t = parseInvalid (accept { o with op := 4 } s))
          ∨ (StructurallyValid s.inBuf o.len.toNat
            ∧ t = parseValid (s.inBuf.bytes 0 (4 * ((s.inBuf.read 0).toNat % 16))) (accept { o with op := 4 } s))) := by
  rw [execParse_next]
  refine and_congr_right fun _ => ?_
  unfold StructurallyValid
  by_cases h1 : o.len.toNat < 20
  · simp [h1]
  rw [if_neg h1]
  simp only [byte0Valid_iff]
  by_cases h2 : (s.inBuf.read 0).toNat / 16 = 4 ∧ 20 ≤ 4 * ((s.inBuf.read 0).toNat % 16)
      ∧ 4 * ((s.inBuf.read 0).toNat % 16) ≤ o.len.toNat
  · rw [if_neg (by simpa using h2), hlenOf_eq, totalLenOf_bytes _ _ (by omega)]
    have h20 : o.len.toNat ≥ 20 := by omega
    simp only [lengthsValid, Bool.and_eq_true, decide_eq_true_eq, h2, true_and, h20]
    split
    · rename_i h3; simp [h3]
    · rename_i h3; simp only [Decidable.not_not] at h3; simp [h3]
  · rw [if_pos h2]
    have hn : ¬ StructurallyValid s.inBuf o.len.toNat := fun h => h2 ⟨h.2.1, h.2.2.1, h.2.2.2.1⟩
    unfold StructurallyValid at hn
    simp [hn]

end Sys2Proof.Machine
end

