-- ==== Sys2Proof/Laws/PerInstr.lean ====
section
/-! SUPPORT. The per-instruction family `EncodesLegal`: the descriptor of a command is legal (R61, R63), and its `op`
and operand bits stand where R60 puts them. -/

namespace Sys2Proof.Laws.EncodesLegal

/-- The descriptor of `i` is well-formed and carries `i`'s code and operand fields. -/
def Statement (i : Instr) : Prop :=
  (encode i).WellFormed ∧ (encode i).op = i.op ∧ (encode i).operands = i.operands

/-- The three reserved fields of any packed descriptor are zero. -/
theorem pack_wellFormed (op : BitVec 3) (o : Operands) (h : 1 ≤ op.toNat ∧ op.toNat ≤ 5) :
    (Desc.pack op o).WellFormed := by
  refine ⟨pack_rsv0 op o, pack_rsv1 op o, pack_rsv2 op o, ?_⟩
  have h' : (Desc.pack op o).w0.extractLsb' 29 3 = op := pack_op op o
  rw [Desc.opAssigned, h']
  exact h

theorem csum (o : Operands) : Statement (.csum o) :=
  ⟨pack_wellFormed 1 o (by decide), pack_op 1 o, pack_operands 1 o⟩

theorem build (o : Operands) : Statement (.build o) :=
  ⟨pack_wellFormed 2 o (by decide), pack_op 2 o, pack_operands 2 o⟩

theorem assemble (o : Operands) : Statement (.assemble o) :=
  ⟨pack_wellFormed 3 o (by decide), pack_op 3 o, pack_operands 3 o⟩

theorem parse (o : Operands) : Statement (.parse o) :=
  ⟨pack_wellFormed 4 o (by decide), pack_op 4 o, pack_operands 4 o⟩

theorem frag (o : Operands) : Statement (.frag o) :=
  ⟨pack_wellFormed 5 o (by decide), pack_op 5 o, pack_operands 5 o⟩

end Sys2Proof.Laws.EncodesLegal
end

