-- ==== Sys2Proof/Laws/Sum.lean ====
section
/-! SUPPORT. Laws of the checksum's two loops: the word additions are exact while they fit the accumulator, and the
fold keeps the residue modulo 65535 and ends below 65536. -/

namespace Sys2Proof.Machine

/-! ### The exact word sum -/

@[simp] theorem wordTotal_nil : wordTotal [] = 0 := rfl

@[simp] theorem wordTotal_singleton (b : Byte) : wordTotal [b] = b.toNat * 256 := by
  simp [wordTotal, List.range_succ]

theorem wordTotal_cons_cons (a b : Byte) (r : List Byte) :
    wordTotal (a :: b :: r) = a.toNat * 256 + b.toNat + wordTotal r := by
  unfold wordTotal
  rw [List.length_cons, List.length_cons, show r.length + 1 + 1 = 2 + r.length by omega, List.range_add,
    List.map_append, List.sum_append, List.map_map]
  congr 1
  · simp [List.range_succ]
  · congr 1
    apply List.map_congr_left
    intro i _
    simp only [Function.comp_apply]
    rw [show 2 + i = i + 1 + 1 by omega]
    simp [show (i + 1 + 1) % 2 = i % 2 by omega]

/-- A word adds at most `0xFFFF`. -/
theorem wordTotal_le (b : List Byte) : wordTotal b ≤ 65535 * ((b.length + 1) / 2) := by
  induction b using List.twoStepInduction with
  | nil => simp
  | singleton x => have := x.isLt; simp; omega
  | cons_cons x y r ih =>
    have := x.isLt
    have := y.isLt
    rw [wordTotal_cons_cons]
    simp only [List.length_cons]
    omega

/-- The additions are exact while the total fits the accumulator (R85). -/
theorem sumWords_eq (w : Nat) (b : List Byte) (acc : Nat) (h : acc + wordTotal b < 2 ^ w) :
    sumWords w acc b = acc + wordTotal b := by
  induction b using List.twoStepInduction generalizing acc with
  | nil => simp [sumWords]
  | singleton x =>
    rw [wordTotal_singleton] at h ⊢
    have hm : (acc + x.toNat * 256) % 2 ^ w = acc + x.toNat * 256 := Nat.mod_eq_of_lt h
    rw [sumWords, hm]
  | cons_cons x y r ih _ =>
    rw [wordTotal_cons_cons] at h ⊢
    have hle : acc + (x.toNat * 256 + y.toNat) + wordTotal r < 2 ^ w := by
      rwa [Nat.add_assoc]
    have hm : (acc + (x.toNat * 256 + y.toNat)) % 2 ^ w = acc + (x.toNat * 256 + y.toNat) :=
      Nat.mod_eq_of_lt (Nat.lt_of_le_of_lt (Nat.le_add_right _ _) hle)
    rw [sumWords, hm, ih _ hle, Nat.add_assoc]

/-- The accumulator never exceeds its width. -/
theorem sumWords_lt (w : Nat) (b : List Byte) (acc : Nat) (h : acc < 2 ^ w) : sumWords w acc b < 2 ^ w := by
  induction b using List.twoStepInduction generalizing acc with
  | nil => exact h
  | singleton x => exact Nat.mod_lt _ (Nat.two_pow_pos w)
  | cons_cons x y r ih _ => exact ih _ (Nat.mod_lt _ (Nat.two_pow_pos w))

/-! ### The fold -/

theorem foldCarries_of_lt (k acc : Nat) (h : acc < 65536) : foldCarries k acc = acc := by
  cases k with
  | zero => rfl
  | succ k => simp [foldCarries, show acc / 65536 = 0 by omega]

theorem foldCarries_succ_of_le (k acc : Nat) (h : 65536 ≤ acc) :
    foldCarries (k + 1) acc = foldCarries k (acc % 65536 + acc / 65536) := by
  rw [foldCarries, if_neg (by omega)]

/-- The fold keeps the residue modulo 65535. -/
theorem foldCarries_mod (k acc : Nat) : foldCarries k acc % 65535 = acc % 65535 := by
  induction k generalizing acc with
  | zero => rfl
  | succ k ih =>
    rw [foldCarries]
    split
    · rfl
    · rw [ih]; omega

/-- The fold of a positive accumulator is positive. -/
theorem foldCarries_pos (k acc : Nat) (h : 0 < acc) : 0 < foldCarries k acc := by
  induction k generalizing acc with
  | zero => exact h
  | succ k ih =>
    rw [foldCarries]
    split
    · exact h
    · exact ih _ (by omega)

/-- The fold ends within the accumulator's width: as many rounds as it has bits are enough. -/
theorem foldCarries_lt (k acc : Nat) (hk : 16 ≤ k) (h : acc < 2 ^ k) : foldCarries k acc < 65536 := by
  induction k generalizing acc with
  | zero => omega
  | succ k ih =>
    by_cases hs : acc < 65536
    · rwa [foldCarries_of_lt _ _ hs]
    · rw [foldCarries_succ_of_le _ _ (by omega)]
      have hp : 2 ^ (k + 1) = 2 * 2 ^ k := by rw [pow_succ]; omega
      rcases Nat.lt_or_ge 16 k with hlt | hge
      · have hkk : 2 ^ 17 ≤ 2 ^ k := Nat.pow_le_pow_right (by omega) (by omega)
        exact ih _ (by omega) (by omega)
      · have hkk : k ≤ 16 := hge
        rcases Nat.lt_or_ge k 16 with hl | hg
        · have : k = 15 := by omega
          subst this
          omega
        · have : k = 16 := by omega
          subst this
          have h1 : acc / 65536 = 1 := by omega
          rw [h1]
          by_cases h2 : acc % 65536 + 1 < 65536
          · rwa [foldCarries_of_lt _ _ h2]
          · rw [foldCarries_succ_of_le _ _ (by omega), foldCarries_of_lt] <;> omega

/-- The accumulator when `Sum16` returns is a 16-bit value: the loop really ended (R80). -/
theorem sum16Acc_lt (p : Config.Params) (b : List Byte) : sum16Acc p.accW b < 65536 := by
  have hw : 16 ≤ p.accW := by unfold Config.Params.accW; omega
  exact foldCarries_lt _ _ hw (sumWords_lt _ _ _ (Nat.two_pow_pos _))

/-- So nothing is lost in the 16-bit result. -/
theorem sum16_toNat (p : Config.Params) (b : List Byte) : (sum16 p.accW b).toNat = sum16Acc p.accW b := by
  have := sum16Acc_lt p b
  simp only [sum16, BitVec.toNat_ofNat]
  omega

theorem csum16_toNat (w : Nat) (b : List Byte) : (csum16 w b).toNat = 65535 - (sum16 w b).toNat := by
  simp [csum16, BitVec.toNat_not]

/-! ### The sum as arithmetic (R84) -/

/-- The total of at most 65535 bytes. -/
theorem wordTotal_lt (b : List Byte) (h : b.length ≤ 65535) : wordTotal b < 2 ^ 31 := by
  have := wordTotal_le b
  have : (b.length + 1) / 2 ≤ 32768 := by omega
  omega

/-- A total that fits 31 bits is summed exactly in any accumulator R6 allows. -/
theorem sumWords_zero_eq (p : Config.Params) (b : List Byte) (h : wordTotal b < 2 ^ 31) :
    sumWords p.accW 0 b = wordTotal b := by
  have hw : 2 ^ 31 < 2 ^ p.accW := Nat.pow_lt_pow_right (by omega) (by unfold Config.Params.accW; omega)
  rw [sumWords_eq _ _ _ (by rw [Nat.zero_add]; exact lt_trans h hw), Nat.zero_add]

/-- The total after one byte is replaced. -/
theorem wordTotal_set (b : List Byte) (i : Nat) (v : Byte) (h : i < b.length) :
    wordTotal (b.set i v) + (b.getD i 0).toNat * (if i % 2 = 0 then 256 else 1)
      = wordTotal b + v.toNat * (if i % 2 = 0 then 256 else 1) := by
  induction b using List.twoStepInduction generalizing i with
  | nil => simp at h
  | singleton x =>
    have : i = 0 := by simpa using h
    subst this
    simp
    omega
  | cons_cons x y r ih _ =>
    match i with
    | 0 => simp [wordTotal_cons_cons]; omega
    | 1 => simp [wordTotal_cons_cons]; omega
    | i + 2 =>
      simp only [List.length_cons] at h
      have := ih i (by omega)
      simp only [List.set_cons_succ, wordTotal_cons_cons, List.getD_cons_succ, show (i + 2) % 2 = i % 2 by omega]
      omega

/-- The total of two pieces, the first of even length. -/
theorem wordTotal_append (a b : List Byte) (h : a.length % 2 = 0) :
    wordTotal (a ++ b) = wordTotal a + wordTotal b := by
  induction a using List.twoStepInduction with
  | nil => simp
  | singleton x => simp at h
  | cons_cons x y r ih _ =>
    simp only [List.length_cons] at h
    rw [List.cons_append, List.cons_append, wordTotal_cons_cons, wordTotal_cons_cons, ih (by omega)]
    omega

end Sys2Proof.Machine
end

