-- ==== Sys2Proof/Tests/Slice0.lean ====
section
/-! SUPPORT. The model's own tests: the checks of WellFormed, words written out from the spec's encoding, the worked
vectors of `95_test_vectors.md` (the expected values are the spec's), and one witness for every obligation with
hypotheses. -/

open Sys2Proof Sys2Proof.Machine

namespace Sys2Proof.Tests

/-! ## Helpers -/

/-- The reset machine with buffers, SINK answers and one descriptor waiting. -/
def start (input output : List Byte) (answers : List (BitVec 1)) (d : Desc) : State :=
  { State.reset with
    inBuf := Buffer.ofBytes input, outBuf := Buffer.ofBytes output, sink := answers, req := [.present d] }

/-- The answer is a next state of which `p` holds. -/
def nextIs (a : Answer) (p : State → Bool) : Bool :=
  match a with
  | .next t => p t
  | .fault _ => false
  | .refused _ => false

/-- The next state, or the reset state. -/
def after (a : Answer) : State :=
  match a with
  | .next t => t
  | .fault _ => State.reset
  | .refused _ => State.reset

theorem eq_next_after {a : Answer} (h : nextIs a (fun _ => true) = true) : a = .next (after a) := by
  cases a with
  | next t => rfl
  | fault _ => cases h
  | refused _ => cases h

/-- Operands that are all zero but for the length. -/
def ofLen (n : Half) : Operands := { df := 0, ttl := 0, proto := 0, id := 0, len := n, aux := 0, src := 0, dst := 0 }

/-- The bytes 0, 1, .., n - 1. -/
def ramp (n : Nat) : List Byte := (List.range n).map (BitVec.ofNat 8)

/-! ## WellFormed (R61, R63): one ill-formed descriptor for each check, refused -/

theorem test_rsv0_refused : ¬ (Desc.WellFormed ⟨0x21000000, 8, 0, 0, 0⟩) ∧
    decode ⟨0x21000000, 8, 0, 0, 0⟩ = .error .reservedField0 := by decide
theorem test_rsv1_refused : ¬ (Desc.WellFormed ⟨0x20000001, 8, 0, 0, 0⟩) ∧
    decode ⟨0x20000001, 8, 0, 0, 0⟩ = .error .reservedField1 := by decide
theorem test_rsv2_refused : ¬ (Desc.WellFormed ⟨0x20000000, 8, 1, 0, 0⟩) ∧
    decode ⟨0x20000000, 8, 1, 0, 0⟩ = .error .reservedField2 := by decide
theorem test_op0_refused : ¬ (Desc.WellFormed ⟨0, 0, 0, 0, 0⟩) ∧ decode ⟨0, 0, 0, 0, 0⟩ = .error .reservedOp := by
  decide
theorem test_op6_refused : ¬ (Desc.WellFormed ⟨0xC0000000, 8, 0, 0, 0⟩) ∧
    decode ⟨0xC0000000, 8, 0, 0, 0⟩ = .error .reservedOp := by decide
theorem test_op7_refused : ¬ (Desc.WellFormed ⟨0xE0000000, 8, 0, 0, 0⟩) ∧
    decode ⟨0xE0000000, 8, 0, 0, 0⟩ = .error .reservedOp := by decide

/-- A command whose text would name an operand its mnemonic does not have (R72). -/
theorem test_unwritable : Instr.writable (.csum { ofLen 8 with aux := 1 }) = false ∧
    Instr.writable (.build { ofLen 8 with aux := 1 }) = false ∧
    Instr.writable (.parse { ofLen 8 with df := 1 }) = false ∧
    Instr.writable (.frag { ofLen 8 with df := 1 }) = false ∧
    Instr.writable (.assemble { ofLen 8 with df := 1, aux := 1 }) = true := by decide

/-! ## Decoding: words written out bit by bit from R60 and R62 -/

/-- `CSUM`, every other field set: `op 001, df 1, rsv 0000, ttl AA, proto BB` (vector X7). -/
theorem test_decode_csum : decode ⟨0b00110000101010101011101100000000, 0xCCCC0008, 0xDDDD0000, 0xDEADBEEF, 0xCAFEF00D⟩ =
    .ok (.csum ⟨1, 0xAA, 0xBB, 0xCCCC, 8, 0xDDDD, 0xDEADBEEF, 0xCAFEF00D⟩) := by decide
/-- `BUILD`, `op 010, df 1, rsv 0000, ttl 64, proto 17` (vector B3). -/
theorem test_decode_build : decode ⟨0b01010000010000000001000100000000, 0x00000073, 0, 0xC0A80001, 0xC0A800C7⟩ =
    .ok (.build ⟨1, 64, 17, 0, 115, 0, 0xC0A80001, 0xC0A800C7⟩) := by decide
/-- `ASSEMBLE`, `op 011, df 1` (vector A1). -/
theorem test_decode_assemble : decode ⟨0b01110000000000000001000100000000, 0x00420005, 0x00400000, 0xC0000201, 0xC6336407⟩ =
    .ok (.assemble ⟨1, 0, 17, 0x42, 5, 64, 0xC0000201, 0xC6336407⟩) := by decide
/-- `PARSE`, `op 100` (vector P1). -/
theorem test_decode_parse : decode ⟨0b10000000000000000000000000000000, 0x00000014, 0, 0, 0⟩ =
    .ok (.parse ⟨0, 0, 0, 0, 20, 0, 0, 0⟩) := by decide
/-- `FRAG`, `op 101, df 1, ttl 7, proto 17` (vector F14). -/
theorem test_decode_frag : decode ⟨0b10110000000001110001000100000000, 0xBEEF000A, 0x002B0000, 0xC0000201, 0xC6336407⟩ =
    .ok (.frag ⟨1, 7, 17, 0xBEEF, 10, 43, 0xC0000201, 0xC6336407⟩) := by decide

/-- Every row of the opcode table: its `match` number decodes to the row's command. -/
theorem test_decode_table :
    decodeTableWord 160 0x2000000000000000000000000000000000000000 = some (.csum (ofLen 0))
      ∧ decodeTableWord 160 0x4000000000000000000000000000000000000000 = some (.build (ofLen 0))
      ∧ decodeTableWord 160 0x6000000000000000000000000000000000000000 = some (.assemble (ofLen 0))
      ∧ decodeTableWord 160 0x8000000000000000000000000000000000000000 = some (.parse (ofLen 0))
      ∧ decodeTableWord 160 0xA000000000000000000000000000000000000000 = some (.frag (ofLen 0))
      ∧ decodeTableWord 160 0 = none := by decide

/-- The same words as the first command after reset. -/
theorem test_step_table_word :
    nextIs (step (State.reset.withFetchWord 160 0x4000000000000000000000000000000000000000))
      (fun t => t.cmd.op == 2 && t.res.done == 1 && t.res.status == stOk && t.phase == .idle) = true := by decide

/-! ## The worked vectors, one step each -/

/-- The header of vector B1. -/
def b1 : List Byte := [0x45, 0, 0, 0x14, 0x12, 0x34, 0, 0, 0x40, 6, 0x54, 0xAE, 0x0A, 0, 0, 1, 0x0A, 0, 0, 2]

/-- Vector K5, with the ignored fields of X7. -/
theorem test_csum_k5 : nextIs (step (start [0x00, 0x01, 0xF2, 0x03, 0xF4, 0xF5, 0xF6, 0xF7] [] []
      ⟨0x30AABB00, 0xCCCC0008, 0xDDDD0000, 0xDEADBEEF, 0xCAFEF00D⟩))
    (fun t => t.res.value == 0x220D && t.res.status == 0 && t.res.done == 1 && t.phase == .idle) = true := by decide
/-- Vector K7: odd length. -/
theorem test_csum_k7 : nextIs (step (start [0x00, 0x01, 0xF2] [] [] ⟨0x20000000, 3, 0, 0, 0⟩))
    (fun t => t.res.value == 0x0DFE) = true := by decide

/-- Vector B1: ttl operand 0. -/
theorem test_build_b1 : nextIs (step (start [] [] [] ⟨0x40000600, 0x12340014, 0, 0x0A000001, 0x0A000002⟩))
    (fun t => t.res.hdr.toList == b1 && t.res.status == 0) = true := by decide
/-- Vector B8: the parameter `TOS_BUILD = 0x10`. -/
theorem test_build_b8 : nextIs (step { start [] [] [] ⟨0x40000600, 0x12340014, 0, 0x0A000001, 0x0A000002⟩ with
      params := { Config.Params.default with tosBuild := 0x10 } })
    (fun t => t.res.hdr.toList == [0x45, 0x10, 0, 0x14, 0x12, 0x34, 0, 0, 0x40, 6, 0x54, 0x9E, 0x0A, 0, 0, 1, 0x0A, 0, 0, 2])
      = true := by decide

/-- Vector A2: capacity exactly `20 + len`; the bytes from `total` on stay. -/
theorem test_assemble_a2 : nextIs (step (start [0x68, 0x65, 0x6C, 0x6C, 0x6F] (List.replicate 27 0xAA) []
      ⟨0x70001100, 0x00420005, 0x00190000, 0xC0000201, 0xC6336407⟩))
    (fun t => t.res.value == 25 && t.res.status == 0 && t.outBuf.bytes 0 27 ==
      [0x45, 0, 0, 0x19, 0, 0x42, 0x40, 0, 0x40, 0x11, 0x4E, 0x56, 0xC0, 0, 2, 1, 0xC6, 0x33, 0x64, 7,
        0x68, 0x65, 0x6C, 0x6C, 0x6F, 0xAA, 0xAA]) = true := by decide
/-- Vector A3: one byte less. -/
theorem test_assemble_a3 : nextIs (step (start [0x68, 0x65, 0x6C, 0x6C, 0x6F] (List.replicate 27 0xAA) []
      ⟨0x70001100, 0x00420005, 0x00180000, 0xC0000201, 0xC6336407⟩))
    (fun t => t.res.value == 0 && t.res.status == 1 && t.outBuf.bytes 0 27 == List.replicate 27 0xAA) = true := by decide

/-- Vector P10: options, payload bytes outside the checksum's span. -/
theorem test_parse_p10 : nextIs (step (start [0x46, 0, 0, 0x1C, 0xBE, 0xEF, 0, 0, 0x40, 1, 0x34, 0xED, 0xC0, 0, 2, 1,
      0xC0, 0, 2, 2, 1, 1, 1, 0, 0xDE, 0xAD, 0xBE, 0xEF] [] [] ⟨0x80000000, 28, 0, 0, 0⟩))
    (fun t => t.res.status == 0 && t.res.valid == 1 && t.res.hasOptions == 1 && t.res.csumOk == 1 && t.res.vIhl == 6
      && t.res.vTotalLen == 28 && t.res.vId == 0xBEEF && t.res.vCsum == 0x34ED && t.res.vDst == 0xC0000202) = true := by
  decide
/-- Vector P11: nothing of the flags, offset, tos or ttl is checked, all of it is reported. -/
theorem test_parse_p11 : nextIs (step (start [0x45, 0x10, 0, 0x14, 0, 1, 0xFF, 0xFF, 1, 0x11, 0xA9, 0xB5, 1, 2, 3, 4, 5, 6, 7, 8]
      [] [] ⟨0x80000000, 20, 0, 0, 0⟩))
    (fun t => t.res.valid == 1 && t.res.csumOk == 1 && t.res.hasOptions == 0 && t.res.vTos == 0x10 && t.res.vRf == 1
      && t.res.vDf == 1 && t.res.vMf == 1 && t.res.vFragOff == 8191 && t.res.vTtl == 1 && t.res.vSrc == 0x01020304) = true := by
  decide

/-- Vector F1 before the command. -/
def f1 : State := start (ramp 25) [] [0, 0] ⟨0xA0001100, 0xBEEF0019, 0x00240000, 0xC0000201, 0xC6336407⟩
/-- After the first sink call, after its answer, after the second call, its answer, and the completion. -/
def f1Call1 : State := after (step f1)
def f1Head1 : State := after (step f1Call1)
def f1Call2 : State := after (step f1Head1)
def f1Head2 : State := after (step f1Call2)

/-- Vector F1, the first call. -/
theorem test_frag_f1_call1 : nextIs (step f1) (fun t => t.phase == .sinkWait && t.res.done == 0 && t.sinkCall ==
    some ([0x45, 0, 0, 0x24, 0xBE, 0xEF, 0x20, 0, 0x40, 0x11, 0xAF, 0x9D, 0xC0, 0, 2, 1, 0xC6, 0x33, 0x64, 7] ++ ramp 16))
      = true := by decide
/-- Vector F1, the second call. -/
theorem test_frag_f1_call2 : nextIs (step f1Head1) (fun t => t.phase == .sinkWait && t.work.cnt == 2 && t.sinkCall ==
    some [0x45, 0, 0, 0x1D, 0xBE, 0xEF, 0, 2, 0x40, 0x11, 0xCF, 0xA2, 0xC0, 0, 2, 1, 0xC6, 0x33, 0x64, 7,
      0x10, 0x11, 0x12, 0x13, 0x14, 0x15, 0x16, 0x17, 0x18]) = true := by decide

/-! ## Witnesses: states and operands that meet the hypotheses of the obligations -/

/-- A CSUM command, a state it runs in, and where it leads. -/
def csumState : State := start [1, 2, 3] [] [] ⟨0x20000000, 3, 0, 0, 0⟩
/-- The operands of vector B1. -/
def b1Ops : Operands := ⟨0, 0, 6, 0x1234, 20, 0, 0x0A000001, 0x0A000002⟩
/-- The operands of vectors A2 and A3. -/
def a2Ops : Operands := ⟨1, 0, 17, 0x42, 5, 25, 0xC0000201, 0xC6336407⟩
def a3Ops : Operands := { a2Ops with aux := 24 }
def a2State : State := start [0x68, 0x65, 0x6C, 0x6C, 0x6F] (List.replicate 27 0xAA) [] ⟨0, 0, 0, 0, 0⟩
/-- The operands of vector F1. -/
def f1Ops : Operands := ⟨0, 0, 17, 0xBEEF, 25, 36, 0xC0000201, 0xC6336407⟩
/-- A state whose IN begins with the header of B1. -/
def p1State : State := start b1 [] [] ⟨0x80000000, 20, 0, 0, 0⟩
/-- The same header with the checksum `0xFFFF` of vector P9. -/
def p9State : State := start [0x45, 0, 0, 0x14, 0x66, 0xE2, 0, 0, 0x40, 6, 0xFF, 0xFF, 0x0A, 0, 0, 1, 0x0A, 0, 0, 2] [] []
  ⟨0x80000000, 20, 0, 0, 0⟩

theorem witness_EncodeUndoesDecode : decode ⟨0x40000600, 0x12340014, 0, 0x0A000001, 0x0A000002⟩ = .ok (.build b1Ops) := by
  decide

theorem witness_DecoderAcceptsExactlyLegalDescriptors :
    Desc.WellFormed ⟨0x20000000, 0, 0, 0, 0⟩ ∧ Desc.WellFormed ⟨0xB0FFFF00, 0xFFFFFFFF, 0xFFFF0000, 0xFFFFFFFF, 0xFFFFFFFF⟩
      ∧ ¬ Desc.WellFormed ⟨0x00000000, 0, 0, 0, 0⟩ ∧ ¬ Desc.WellFormed ⟨0xC0000000, 0, 0, 0, 0⟩
      ∧ ¬ Desc.WellFormed ⟨0x28000000, 0, 0, 0, 0⟩ ∧ ¬ Desc.WellFormed ⟨0x20000080, 0, 0, 0, 0⟩
      ∧ ¬ Desc.WellFormed ⟨0x20000000, 0, 0x8000, 0, 0⟩ := by decide

/-- Each reason of R63 alone, and all of them together (X8). -/
theorem witness_IllegalDescriptorCompletesAtOnce :
    (∀ d ∈ ([⟨0, 0, 0, 0, 0⟩, ⟨0xC0000000, 8, 0, 0, 0⟩, ⟨0xE0000000, 8, 0, 0, 0⟩, ⟨0x21000000, 8, 0, 0, 0⟩,
        ⟨0x20000001, 8, 0, 0, 0⟩, ⟨0x20000000, 8, 1, 0, 0⟩,
        ⟨0xE1000001, 0xFFFFFFFF, 0xFFFFFFFF, 0xFFFFFFFF, 0xFFFFFFFF⟩] : List Desc),
      (start [1] [2] [1] d).phase = .idle ∧ (start [1] [2] [1] d).resetIn = false
        ∧ (start [1] [2] [1] d).req = .present d :: []
        ∧ (d.w0.extractLsb' 29 3 = 0 ∨ d.w0.extractLsb' 29 3 = 6 ∨ d.w0.extractLsb' 29 3 = 7
          ∨ d.w0.extractLsb' 24 4 ≠ 0 ∨ d.w0.extractLsb' 0 8 ≠ 0 ∨ d.w2.extractLsb' 0 16 ≠ 0)) := by decide

theorem witness_IgnoredFieldsDoNotMatter :
    (∃ t, exec (.csum (ofLen 3)) csumState = .next t)
      ∧ ({ ofLen 3 with df := 1, ttl := 9, aux := 7, src := 5 } : Operands).len = (ofLen 3).len
      ∧ (∃ t, exec (.parse (ofLen 3)) csumState = .next t) ∧ (∃ t, exec (.build b1Ops) csumState = .next t)
      ∧ (∃ t, exec (.frag f1Ops) f1 = .next t)
      ∧ (f1Call1.phase ≠ .idle ∧ f1Call1.resetIn = false ∧ ∃ t, step f1Call1 = .next t)
      ∧ (∃ t, exec (.frag f1Ops) f1 = .next t ∧ t.phase = .sinkWait)
      ∧ f1Head1.phase = .run ∧ f1Head1.resetIn = false ∧ ∃ t, step f1Head1 = .next t ∧ t.phase = .sinkWait :=
  ⟨⟨_, eq_next_after (by decide)⟩, by decide, ⟨_, eq_next_after (by decide)⟩, ⟨_, eq_next_after (by decide)⟩,
    ⟨_, eq_next_after (by decide)⟩, ⟨by decide, by decide, _, eq_next_after (by decide)⟩,
    ⟨after (exec (.frag f1Ops) f1), eq_next_after (by decide), by decide⟩, by decide, by decide,
    after (step f1Head1), eq_next_after (by decide), by decide⟩

theorem witness_StepRunsPresentedCommand :
    f1.phase = .idle ∧ f1.resetIn = false
      ∧ f1.req = .present ⟨0xA0001100, 0xBEEF0019, 0x00240000, 0xC0000201, 0xC6336407⟩ :: []
      ∧ decode ⟨0xA0001100, 0xBEEF0019, 0x00240000, 0xC0000201, 0xC6336407⟩ = .ok (.frag f1Ops) := by decide

/-- A command waits at REQ while the block is in SINK_WAIT, and while it is in RUN. -/
theorem witness_BusyBlockAcceptsNothing :
    (let s := { f1Call1 with req := [.present ⟨0x20000000, 3, 0, 0, 0⟩] };
      s.phase ≠ .idle ∧ s.resetIn = false ∧ ∃ t, step s = .next t)
    ∧ (let s := { f1Head1 with req := [.present ⟨0x20000000, 3, 0, 0, 0⟩] };
      s.phase ≠ .idle ∧ s.resetIn = false ∧ ∃ t, step s = .next t) :=
  ⟨⟨by decide, by decide, _, eq_next_after (by decide)⟩, by decide, by decide, _, eq_next_after (by decide)⟩

theorem witness_SilentSinkHangsTheBlock :
    (let s := { f1Call1 with sink := [] };
      s.phase = .sinkWait ∧ s.sink = [] ∧ s.resetIn = false)
    ∧ (∃ t, f1Call1.phase = .sinkWait ∧ step f1Call1 = .next t ∧ t ≠ f1Call1)
    ∧ (let s := { f1Call1 with resetIn := true };
      s.phase = .sinkWait ∧ s.resetIn = true) :=
  ⟨by decide, ⟨after (step f1Call1), by decide, eq_next_after (by decide), fun h => by
    have : (after (step f1Call1)).phase = f1Call1.phase := by rw [h]
    exact absurd this (by decide)⟩, by decide⟩

/-- In IDLE with a buffer step first; in RUN; in SINK_WAIT with no answer, the answer 0 and the answer 1. -/
theorem witness_PhasesChangeOnlyAsTheTableSays :
    (let s := { f1 with req := [.fillIn [7]] };
      s.resetIn = false ∧ s.phase = .idle ∧ (∀ d rest, s.req ≠ .present d :: rest) ∧ ∃ t, step s = .next t)
    ∧ (f1Head1.resetIn = false ∧ f1Head1.phase = .run ∧ ∃ t, step f1Head1 = .next t)
    ∧ (∀ a ∈ ([[], [0], [1]] : List (List (BitVec 1))),
      let s := { f1Call1 with sink := a };
      s.resetIn = false ∧ s.phase = .sinkWait ∧ ∃ t, step s = .next t) := by
  refine ⟨⟨by decide, by decide, fun d rest h => by simp at h, _, eq_next_after (by decide)⟩,
    ⟨by decide, by decide, _, eq_next_after (by decide)⟩, ?_⟩
  intro a ha
  simp only [List.mem_cons, List.not_mem_nil, or_false] at ha
  rcases ha with rfl | rfl | rfl
  · exact ⟨by decide, by decide, _, eq_next_after (by decide)⟩
  · exact ⟨by decide, by decide, _, eq_next_after (by decide)⟩
  · exact ⟨by decide, by decide, _, eq_next_after (by decide)⟩

theorem witness_ReqProvidesBuffersWhileIdle :
    (let s := { f1 with req := [.fillIn [7, 0, 9]] };
      s.phase = .idle ∧ s.resetIn = false ∧ s.req = .fillIn [7, 0, 9] :: [] ∧ 2 < [7, 0, 9].length)
    ∧ (let s := { f1 with req := [.provideOut [7]] };
      s.phase = .idle ∧ s.resetIn = false ∧ s.req = .provideOut [7] :: [] ∧ 0 < [7].length) := by decide

/-- Steps that change IN, OUT (by REQ and by ASSEMBLE) and FB (by a launch and by a later round). -/
theorem witness_BuffersHaveOneWriter :
    nextIs (step { f1 with req := [.fillIn [7]] }) (fun t => t.inBuf != f1.inBuf) = true
      ∧ nextIs (step { f1 with req := [.provideOut [7]] }) (fun t => t.outBuf != f1.outBuf) = true
      ∧ nextIs (step { a2State with req := [.present (encode (.assemble a2Ops))] })
        (fun t => t.outBuf != a2State.outBuf) = true
      ∧ nextIs (step f1) (fun t => t.fb != f1.fb) = true
      ∧ nextIs (step f1Head1) (fun t => t.fb != f1Head1.fb) = true := by decide

theorem witness_ParametersNeverChange : (∃ t, step f1 = .next t) ∧ ∃ t, step { f1 with resetIn := true } = .next t :=
  ⟨⟨_, eq_next_after (by decide)⟩, _, eq_next_after (by decide)⟩

/-- Two states that agree on what R10 names and differ in the rest of IN, in OUT, FB, RES, the transient registers and
the history: at a launch (of a FRAG whose first slice is `IN[0 .. 15]`), and in a later round (whose slice is
`IN[16 .. 24]`). -/
theorem witness_NoStateFromEarlierCommands :
    (let s' := { f1 with
        inBuf := f1.inBuf.write 20 [9], outBuf := f1.outBuf, res := { Res.zero with status := 4 }, fb := f1Call2.fb
        work := f1Call2.work, draws := 9 };
      s'.params = f1.params ∧ s'.inBuf.size = f1.inBuf.size
        ∧ (∀ a, MayRead (.frag f1Ops) f1 a → s'.inBuf.read a = f1.inBuf.read a) ∧ s'.inBuf.read 20 ≠ f1.inBuf.read 20
        ∧ s'.outBuf.size = f1.outBuf.size ∧ s'.fb.size = f1.fb.size ∧ s' ≠ f1 ∧ ∃ t, exec (.frag f1Ops) f1 = .next t)
    ∧ (let s' := { a2State with outBuf := Buffer.ofBytes (List.replicate 27 1) };
      s'.params = a2State.params ∧ s'.outBuf.size = a2State.outBuf.size ∧ s'.outBuf.read 26 ≠ a2State.outBuf.read 26
        ∧ ∃ t, exec (.assemble a2Ops) a2State = .next t)
    ∧ (let s' := { f1Head1 with
        fb := f1Call2.fb, draws := 9, outBuf := Buffer.ofBytes [1], inBuf := f1Head1.inBuf.write 3 [9] };
      f1Head1.phase ≠ .idle ∧ f1Head1.resetIn = false ∧ s'.resetIn = false ∧ s'.phase = f1Head1.phase
        ∧ s'.params = f1Head1.params ∧ s'.cmd = f1Head1.cmd ∧ s'.inBuf.size = f1Head1.inBuf.size
        ∧ (∀ a, f1Head1.phase = .run → f1Head1.work.off.toNat ≤ a →
          a < f1Head1.work.off.toNat + f1Head1.work.cap.toNat → a < f1Head1.cmd.len.toNat →
          s'.inBuf.read a = f1Head1.inBuf.read a)
        ∧ s'.inBuf.read 3 ≠ f1Head1.inBuf.read 3 ∧ s'.sink = f1Head1.sink ∧ s'.work = f1Head1.work
        ∧ s'.fb.size = f1Head1.fb.size ∧ s'.sinkCall = f1Head1.sinkCall ∧ ∃ t, step f1Head1 = .next t) := by
  have first : ∀ a, a < 16 → (f1.inBuf.write 20 [9]).read a = f1.inBuf.read a := by decide
  have slice : ∀ a, a < 25 → 16 ≤ a → (f1Head1.inBuf.write 3 [9]).read a = f1Head1.inBuf.read a := by decide
  have off : f1Head1.work.off.toNat = 16 := by decide
  have len : f1Head1.cmd.len.toNat = 25 := by decide
  refine ⟨⟨rfl, rfl, fun a h => first a (Nat.lt_of_lt_of_le h.2 (by decide)), by decide, rfl, by decide,
      fun h => absurd (congrArg State.draws h) (by decide), _, eq_next_after (by decide)⟩,
    ⟨rfl, by decide, by decide, _, eq_next_after (by decide)⟩,
    by decide, by decide, by decide, rfl, rfl, rfl, rfl,
    fun a _ h1 _ h3 => slice a (by rwa [len] at h3) (by rwa [off] at h1), by decide, rfl, rfl, by decide, by decide, _,
    eq_next_after (by decide)⟩

theorem witness_ResetAbandonsTheCommand : ({ f1Call1 with resetIn := true } : State).resetIn = true
    ∧ ({ f1Call1 with resetIn := true } : State).phase = .sinkWait := by decide

/-! ### The Checksum Engine -/

theorem witness_Sum16IsOnesComplementSum : ([0xFF, 0xFF] : List Byte).length ≤ 65535
    ∧ (List.replicate 65535 (0xFF : Byte)).length ≤ 65535 := by
  rw [List.length_replicate]; decide

theorem witness_SumIsExactAndIndependentOfAccumulatorWidth : (List.replicate 65535 (0xFF : Byte)).length ≤ 65535 := by
  rw [List.length_replicate]

theorem witness_FoldTakesAtMostTwoRounds : (0xFFFFFFFF : Nat) < 2 ^ 32 ∧ 2 ≤ 2 := by decide

/-- Odd and even sequences and a permutation that is not the identity. -/
theorem witness_SumUnderPaddingAndSwapping :
    let ws : List (Byte × Byte) := [(1, 2), (3, 4)]
    let b : List Byte := [1, 2, 3]
    2 * ws.length ≤ 65535 ∧ b.length ≤ 65533 ∧ b.length % 2 = 1 ∧ ([(3, 4), (1, 2)] : List (Byte × Byte)).Perm ws :=
  ⟨by decide, by decide, by decide, List.Perm.swap _ _ _⟩

theorem witness_OneBitChangesTheSum : b1.length ≤ 65535 ∧ 19 < b1.length ∧ 7 < 8 := by decide

theorem witness_CorrectChecksumVerifies :
    let h : List Byte := (b1.set 10 0).set 11 0
    h.length ≤ 65535 ∧ h.length % 2 = 0 ∧ 12 ≤ h.length ∧ h.getD 10 0 = 0 ∧ h.getD 11 0 = 0 := by decide

/-- Too short by one, exactly long enough, empty, odd, all zero, and all ones of even length. -/
theorem witness_CsumDeliversTheChecksum :
    csumState.inBuf.size < (ofLen 4).len.toNat ∧ (ofLen 3).len.toNat ≤ csumState.inBuf.size
      ∧ ((ofLen 0).len.toNat ≤ csumState.inBuf.size ∧ (ofLen 0).len.toNat = 0) ∧ (ofLen 3).len.toNat % 2 = 1
      ∧ (ofLen 3).len = ({ ofLen 3 with df := 1 } : Operands).len
      ∧ (∀ a, a < (ofLen 2).len.toNat → (start [0, 0] [] [] ⟨0, 0, 0, 0, 0⟩).inBuf.read a = 0)
      ∧ (0 < (ofLen 2).len.toNat ∧ (ofLen 2).len.toNat % 2 = 0
        ∧ ∀ a, a < (ofLen 2).len.toNat → (start [0xFF, 0xFF] [] [] ⟨0, 0, 0, 0, 0⟩).inBuf.read a = 0xFF) := by decide

/-! ### BUILD, ASSEMBLE, PARSE -/

/-- A built header of total length 19 placed in IN, in a buffer of 20 bytes and in one of 19 (as in vector B6). -/
theorem witness_BuildDeliversTheHeader :
    let t := after (exec (.build { b1Ops with len := 19 }) State.reset)
    let s' := start t.res.hdr.toList [] [] ⟨0x80000000, 20, 0, 0, 0⟩
    exec (.build { b1Ops with len := 19 }) State.reset = .next t ∧ ({ b1Ops with len := 19 } : Operands).len.toNat < 20
      ∧ (ofLen 20).len.toNat ≤ s'.inBuf.size ∧ (ofLen 19).len.toNat ≤ s'.inBuf.size
      ∧ ∀ i, i < 20 → s'.inBuf.read i = t.res.hdr.toList.getD i 0 :=
  ⟨eq_next_after (by decide), by decide, by decide, by decide, by decide⟩

/-- LengthRange at its least length, BufferTooSmall by one byte, success at the least capacity and at the longest. -/
theorem witness_AssembleWritesAllOrNothing :
    (let o := { a2Ops with len := 65516, aux := 65535 };
      o.len.toNat ≤ State.reset.inBuf.size ∧ o.aux.toNat ≤ State.reset.outBuf.size ∧ 65535 < 20 + o.len.toNat)
    ∧ (a3Ops.len.toNat ≤ a2State.inBuf.size ∧ a3Ops.aux.toNat ≤ a2State.outBuf.size
      ∧ 20 + a3Ops.len.toNat ≤ 65535 ∧ a3Ops.aux.toNat < 20 + a3Ops.len.toNat)
    ∧ (a2Ops.len.toNat ≤ a2State.inBuf.size ∧ a2Ops.aux.toNat ≤ a2State.outBuf.size
      ∧ 20 + a2Ops.len.toNat ≤ 65535 ∧ 20 + a2Ops.len.toNat ≤ a2Ops.aux.toNat)
    ∧ (let o := { a2Ops with len := 65515, aux := 65535 };
      o.len.toNat ≤ State.reset.inBuf.size ∧ o.aux.toNat ≤ State.reset.outBuf.size ∧ 20 + o.len.toNat ≤ 65535
        ∧ 20 + o.len.toNat ≤ o.aux.toNat) := by decide

/-- The packet of vector A2, moved to IN. -/
def a2Packet : State := { after (exec (.assemble a2Ops) a2State) with inBuf := (after (exec (.assemble a2Ops) a2State)).outBuf }

theorem witness_AssembledPacketParsesBack :
    (a2Ops.len.toNat ≤ a2State.inBuf.size ∧ a2Ops.aux.toNat ≤ a2State.outBuf.size
      ∧ 20 + a2Ops.len.toNat ≤ 65535 ∧ 20 + a2Ops.len.toNat ≤ a2Ops.aux.toNat)
    ∧ (a2Packet.params = a2State.params ∧ (ofLen 25).len.toNat = 20 + a2Ops.len.toNat
      ∧ (ofLen 25).len.toNat ≤ a2Packet.inBuf.size
      ∧ ∀ a, a < 20 + a2Ops.len.toNat →
        a2Packet.inBuf.read a = (after (exec (.assemble a2Ops) a2State)).outBuf.read a) :=
  ⟨by decide, by decide, by decide, by decide, fun _ _ => rfl⟩

theorem witness_BuiltHeaderRoundTrips :
    ∃ t, exec (.build b1Ops) State.reset = .next t ∧ p1State.params = State.reset.params ∧ 20 ≤ b1Ops.len.toNat
      ∧ b1Ops.len.toNat ≤ (ofLen 20).len.toNat ∧ (ofLen 20).len.toNat ≤ p1State.inBuf.size
      ∧ ∀ i, i < 20 → p1State.inBuf.read i = t.res.hdr.toList.getD i 0 :=
  ⟨after (exec (.build b1Ops) State.reset), eq_next_after (by decide), by decide, by decide, by decide, by decide, by decide⟩

/-- Valid at the bounds (`hlen = total_len = L = 20`), and each of R112's conditions failing by one. -/
theorem witness_ParseDeliversTheFactsAndTheView :
    (StructurallyValid p1State.inBuf 20 ∧ (ofLen 20).len.toNat = 20 ∧ 20 ≤ p1State.inBuf.size)
    ∧ ¬ StructurallyValid p1State.inBuf 19 ∧ ¬ StructurallyValid (Buffer.ofBytes (b1.set 0 0x65)) 20
    ∧ ¬ StructurallyValid (Buffer.ofBytes (b1.set 0 0x44)) 20 ∧ ¬ StructurallyValid (Buffer.ofBytes (b1.set 0 0x46)) 20
    ∧ ¬ StructurallyValid (Buffer.ofBytes (b1.set 3 19)) 20 ∧ ¬ StructurallyValid (Buffer.ofBytes (b1.set 3 21)) 20 := by
  unfold StructurallyValid; decide

/-- Vector P1 and the one family where the two tests differ, vector P9. -/
theorem witness_ChecksumTestsAgreeButOnOneFamily :
    (StructurallyValid p1State.inBuf (ofLen 20).len.toNat ∧ ∃ t, exec (.parse (ofLen 20)) p1State = .next t)
    ∧ (StructurallyValid p9State.inBuf (ofLen 20).len.toNat ∧ (∃ t, exec (.parse (ofLen 20)) p9State = .next t)
      ∧ sum16 p9State.params.accW (((p9State.inBuf.bytes 0 20).set 10 0).set 11 0) = 0xFFFF) :=
  ⟨⟨by unfold StructurallyValid; decide, _, eq_next_after (by decide)⟩, by unfold StructurallyValid; decide,
    ⟨_, eq_next_after (by decide)⟩, by decide⟩

/-- A flip outside the IHL nibble in a longer buffer, and an IHL flip in a 20-byte one. -/
theorem witness_OneFlippedBitIsNoticed :
    (∃ t, exec (.parse (ofLen 30)) (start (b1 ++ ramp 10) [] [] ⟨0, 0, 0, 0, 0⟩) = .next t ∧ t.res.valid = 1
      ∧ t.res.csumOk = 1 ∧ 19 < 4 * (((start (b1 ++ ramp 10) [] [] ⟨0, 0, 0, 0, 0⟩).inBuf.read 0).toNat % 16)
      ∧ 7 < 8 ∧ ¬ (19 = 0 ∧ 7 < 4))
    ∧ ∃ t, exec (.parse (ofLen 20)) p1State = .next t ∧ t.res.valid = 1 ∧ t.res.csumOk = 1
      ∧ 0 < 4 * ((p1State.inBuf.read 0).toNat % 16) ∧ 1 < 8 ∧ (ofLen 20).len.toNat = 20 :=
  ⟨⟨after (exec (.parse (ofLen 30)) (start (b1 ++ ramp 10) [] [] ⟨0, 0, 0, 0, 0⟩)), eq_next_after (by decide), by decide,
      by decide, by decide, by decide, by decide⟩,
    after (exec (.parse (ofLen 20)) p1State), eq_next_after (by decide), by decide, by decide, by decide, by decide, by decide⟩

/-! ### Read sets, write sets, outcomes -/

theorem witness_LaunchRefusedExactlyWhenBuffersAreShort :
    65532 ≤ State.reset.fb.size ∧ Launchable (.csum (ofLen 3)) csumState ∧ ¬ Launchable (.csum (ofLen 4)) csumState
      ∧ Launchable (.assemble a2Ops) a2State ∧ ¬ Launchable (.assemble { a2Ops with aux := 28 }) a2State
      ∧ ¬ Launchable (.frag f1Ops) a2State := by
  unfold Launchable; decide

/-- A buffer that differs from IN only past `CMD.len`, for each command; and only outside the slice, for a round. -/
theorem witness_CommandsReadOnlyTheirReadSet :
    (∀ i ∈ [Instr.csum (ofLen 2), .build b1Ops, .parse (ofLen 2), .assemble { a2Ops with len := 2 },
        .frag { f1Ops with len := 2 }],
      let b := csumState.inBuf.write 2 [9];
      b.size = csumState.inBuf.size ∧ (∀ a, MayRead i { csumState with outBuf := a2State.outBuf } a → b.read a = csumState.inBuf.read a)
        ∧ ∃ t, exec i { csumState with outBuf := a2State.outBuf } = .next t)
    ∧ (let b := f1Head1.inBuf.write 0 [9];
      f1Head1.phase ≠ .idle ∧ f1Head1.resetIn = false ∧ b.size = f1Head1.inBuf.size
        ∧ (∀ a, f1Head1.phase = .run → f1Head1.work.off.toNat ≤ a → a < f1Head1.work.off.toNat + f1Head1.work.cap.toNat →
          a < f1Head1.cmd.len.toNat → b.read a = f1Head1.inBuf.read a)
        ∧ ∃ t, step f1Head1 = .next t) := by
  have small : ∀ a, a < 2 → (csumState.inBuf.write 2 [9]).read a = csumState.inBuf.read a := by decide
  have slice : ∀ a, a < 25 → 16 ≤ a → (f1Head1.inBuf.write 0 [9]).read a = f1Head1.inBuf.read a := by decide
  have off : f1Head1.work.off.toNat = 16 := by decide
  have len : f1Head1.cmd.len.toNat = 25 := by decide
  refine ⟨?_, by decide, by decide, by decide, fun a _ h1 _ h3 => slice a (by rwa [len] at h3) (by rwa [off] at h1), _,
    eq_next_after (by decide)⟩
  intro i hi
  simp only [List.mem_cons, List.not_mem_nil, or_false] at hi
  rcases hi with rfl | rfl | rfl | rfl | rfl
  · exact ⟨by decide, fun a h => small a h, _, eq_next_after (by decide)⟩
  · exact ⟨by decide, fun a h => h.elim, _, eq_next_after (by decide)⟩
  · exact ⟨by decide, fun a h => absurd h.1 (by decide), _, eq_next_after (by decide)⟩
  · exact ⟨by decide, fun a h => small a h.2.2, _, eq_next_after (by decide)⟩
  · exact ⟨by decide, fun a h => small a (Nat.lt_of_lt_of_le h.2 (Nat.min_le_right _ _)), _, eq_next_after (by decide)⟩

/-- Each command runs; ASSEMBLE with and without success; FRAG with and without a sink call. -/
theorem witness_CommandsWriteOnlyTheirWriteSet :
    (∃ t, exec (.csum (ofLen 3)) csumState = .next t) ∧ (∃ t, exec (.build b1Ops) csumState = .next t)
      ∧ (∃ t, exec (.parse (ofLen 20)) p1State = .next t)
      ∧ (∃ t, exec (.assemble a2Ops) a2State = .next t ∧ t.res.status = stOk ∧ 20 + a2Ops.len.toNat ≤ 25)
      ∧ (∃ t, exec (.assemble a3Ops) a2State = .next t ∧ t.res.status ≠ stOk)
      ∧ (∃ t, exec (.frag f1Ops) f1 = .next t ∧ t.phase = .sinkWait ∧ t.work.fbLen.toNat ≤ 36)
      ∧ ∃ t, exec (.frag { f1Ops with len := 0 }) f1 = .next t ∧ t.phase ≠ .sinkWait :=
  ⟨⟨_, eq_next_after (by decide)⟩, ⟨_, eq_next_after (by decide)⟩, ⟨_, eq_next_after (by decide)⟩,
    ⟨after (exec (.assemble a2Ops) a2State), eq_next_after (by decide), by decide, by decide⟩,
    ⟨after (exec (.assemble a3Ops) a2State), eq_next_after (by decide), by decide⟩,
    ⟨after (exec (.frag f1Ops) f1), eq_next_after (by decide), by decide, by decide⟩,
    after (exec (.frag { f1Ops with len := 0 }) f1), eq_next_after (by decide), by decide⟩

/-- Every outcome the statement lists occurs. -/
theorem witness_StatusCodesOfEachCommand :
    nextIs (exec (.csum (ofLen 3)) csumState) (fun t => t.res.status == stOk) = true
      ∧ nextIs (exec (.build b1Ops) csumState) (fun t => t.res.status == stOk) = true
      ∧ nextIs (exec (.assemble a2Ops) a2State) (fun t => t.res.status == stOk) = true
      ∧ nextIs (exec (.assemble { a2Ops with len := 65516, aux := 65535 }) State.reset) (fun t => t.res.status == stLengthRange) = true
      ∧ nextIs (exec (.assemble a3Ops) a2State) (fun t => t.res.status == stBufferTooSmall) = true
      ∧ nextIs (exec (.parse (ofLen 20)) p1State) (fun t => t.res.status == stOk) = true
      ∧ nextIs (exec (.parse (ofLen 19)) p1State) (fun t => t.res.status == stStructurallyInvalidHeader) = true
      ∧ nextIs (exec (.frag { f1Ops with len := 0 }) f1) (fun t => t.res.status == stOk) = true
      ∧ nextIs (exec (.frag { f1Ops with aux := 27 }) f1) (fun t => t.res.status == stMtuTooSmall) = true
      ∧ nextIs (exec (.frag f1Ops) f1) (fun t => t.phase == .sinkWait) = true := by decide

/-! ### The Fragmenter -/

/-- Just below the floor, and below the header size; the capacity on both sides of the floor. -/
theorem witness_FragFailsBelowTheMtuFloor :
    (20 ≤ (27 : Half).toNat ∧ capacity 27 = 0 ∧ 20 ≤ (28 : Half).toNat ∧ capacity 28 = 8)
    ∧ (let o := { f1Ops with aux := 27 };
      o.len.toNat ≤ f1.inBuf.size ∧ o.aux.toNat < f1.params.mtuMin)
    ∧ (let o := { f1Ops with len := 0, aux := 19 };
      o.len.toNat ≤ f1.inBuf.size ∧ o.aux.toNat < f1.params.mtuMin) := by decide

theorem witness_CapacityIsLargestMultipleOfEight :
    20 ≤ (20 : Half).toNat ∧ 8 * 0 + 20 ≤ (20 : Half).toNat ∧ 8 * 1 + 20 ≤ (28 : Half).toNat
      ∧ Config.Params.default.mtuMin ≤ (28 : Half).toNat ∧ Config.Params.default.mtuMin ≤ (65535 : Half).toNat := by
  decide

/-- An empty payload at the floor, and vector F1. -/
theorem witness_FragHandsOverTheFirstFragment :
    (let o := { f1Ops with len := 0, aux := 28 };
      o.len.toNat ≤ f1.inBuf.size ∧ 65532 ≤ f1.fb.size ∧ f1.params.mtuMin ≤ o.aux.toNat ∧ o.len.toNat = 0)
    ∧ f1Ops.len.toNat ≤ f1.inBuf.size ∧ 65532 ≤ f1.fb.size ∧ f1.params.mtuMin ≤ f1Ops.aux.toNat
      ∧ f1Ops.len.toNat ≠ 0 := by decide

/-- The invariant of an idle state. -/
theorem inv_f1 : Machine.Inv f1 where
  input := by decide
  output := by decide
  fragment := by decide
  fbSize := by decide
  acc := by decide
  done := by decide
  status := by decide
  run := fun h => absurd h (by decide)
  call := fun h => absurd h (by decide)

/-- The invariant during the first sink call of F1. -/
theorem inv_f1Call1 : Machine.Inv f1Call1 where
  input := by decide
  output := by decide
  fragment := by decide
  fbSize := by decide
  acc := by decide
  done := by decide
  status := fun h => absurd h (by decide)
  run := fun h => absurd h (by decide)
  call := fun _ =>
    { op := by decide, mtu := by decide, cap := by decide, busy := by decide, input := by decide, counted := by decide
      off := by decide, left := by decide, slice := by decide, mf := by decide, fbLen := by decide, handed := by decide }

/-- The invariant between the two calls, with payload left. -/
theorem inv_f1Head1 : Machine.Inv f1Head1 where
  input := by decide
  output := by decide
  fragment := by decide
  fbSize := by decide
  acc := by decide
  done := by decide
  status := fun h => absurd h (by decide)
  run := fun _ =>
    { op := by decide, mtu := by decide, cap := by decide, busy := by decide, input := by decide, counted := by decide
      last := by decide, off := by decide }
  call := fun h => absurd h (by decide)

/-- The invariant during the last call. -/
theorem inv_f1Call2 : Machine.Inv f1Call2 where
  input := by decide
  output := by decide
  fragment := by decide
  fbSize := by decide
  acc := by decide
  done := by decide
  status := fun h => absurd h (by decide)
  run := fun h => absurd h (by decide)
  call := fun _ =>
    { op := by decide, mtu := by decide, cap := by decide, busy := by decide, input := by decide, counted := by decide
      off := by decide, left := by decide, slice := by decide, mf := by decide, fbLen := by decide, handed := by decide }

/-- The invariant after the last answer, with no payload left. -/
theorem inv_f1Head2 : Machine.Inv f1Head2 where
  input := by decide
  output := by decide
  fragment := by decide
  fbSize := by decide
  acc := by decide
  done := by decide
  status := fun h => absurd h (by decide)
  run := fun _ =>
    { op := by decide, mtu := by decide, cap := by decide, busy := by decide, input := by decide, counted := by decide
      last := by decide, off := by decide }
  call := fun h => absurd h (by decide)

theorem witness_FragGoesOnUntilThePayloadEnds :
    (Machine.Inv f1Head1 ∧ f1Head1.phase = .run ∧ f1Head1.resetIn = false ∧ f1Head1.work.off.toNat < f1Head1.cmd.len.toNat)
    ∧ (Machine.Inv f1Head2 ∧ f1Head2.phase = .run ∧ f1Head2.resetIn = false ∧ f1Head2.cmd.len.toNat ≤ f1Head2.work.off.toNat) :=
  ⟨⟨inv_f1Head1, by decide⟩, inv_f1Head2, by decide⟩

/-- The invariant does not depend on the answers to come. -/
theorem inv_f1Call2_answer (a : List (BitVec 1)) : Machine.Inv { f1Call2 with sink := a } :=
  { inv_f1Call2 with
    call := fun h => { inv_f1Call2.call h with }
    run := fun h => { inv_f1Call2.run h with } }

theorem witness_SinkAnswerDecidesGoOrAbort :
    (Machine.Inv f1Call2 ∧ f1Call2.phase = .sinkWait ∧ f1Call2.resetIn = false ∧ f1Call2.sink = 0 :: [])
    ∧ (Machine.Inv { f1Call2 with sink := [1] } ∧ f1Call2.phase = .sinkWait ∧ f1Call2.resetIn = false
      ∧ ({ f1Call2 with sink := [1] } : State).sink = 1 :: []) :=
  ⟨⟨inv_f1Call2, by decide⟩, inv_f1Call2_answer [1], by decide⟩

/-- A slice that is not the last, and the last one. -/
theorem witness_FragmentFieldsNeverOverflow :
    (Machine.Inv f1Call1 ∧ f1Call1.phase = .sinkWait) ∧ Machine.Inv f1Call2 ∧ f1Call2.phase = .sinkWait :=
  ⟨⟨inv_f1Call1, by decide⟩, inv_f1Call2, by decide⟩

/-- A slice that is not the last, and the last one. -/
theorem witness_SplitsAreAligned :
    (Machine.Inv f1Call1 ∧ f1Call1.phase = .sinkWait ∧ f1Call1.work.off.toNat + f1Call1.work.n.toNat < f1Call1.cmd.len.toNat)
    ∧ Machine.Inv f1Call2 ∧ f1Call2.phase = .sinkWait
      ∧ ¬ f1Call2.work.off.toNat + f1Call2.work.n.toNat < f1Call2.cmd.len.toNat :=
  ⟨⟨inv_f1Call1, by decide⟩, inv_f1Call2, by decide⟩

theorem witness_BuiltHeadersKeepTheInvariants :
    (∃ t, exec (.build b1Ops) State.reset = .next t)
      ∧ (∃ t, exec (.assemble a2Ops) a2State = .next t ∧ t.res.status = stOk)
      ∧ Machine.Inv f1Call1 ∧ f1Call1.phase = .sinkWait :=
  ⟨⟨_, eq_next_after (by decide)⟩, ⟨after (exec (.assemble a2Ops) a2State), eq_next_after (by decide), by decide⟩,
    inv_f1Call1, by decide⟩

/-- A pending call that stays, and two calls one after the other. -/
theorem witness_FragmentsComeInIncreasingOrder :
    (∃ t, f1Call1.phase = .sinkWait ∧ step { f1Call1 with sink := [] } = .next t ∧ t.phase = .sinkWait)
    ∧ (Machine.Inv f1Call1 ∧ f1Call1.phase = .sinkWait ∧ f1Call1.resetIn = false ∧ step f1Call1 = .next f1Head1
      ∧ f1Head1.phase = .run ∧ step f1Head1 = .next f1Call2 ∧ f1Call2.phase = .sinkWait) :=
  ⟨⟨after (step { f1Call1 with sink := [] }), by decide, eq_next_after (by decide), by decide⟩, inv_f1Call1, by decide,
    by decide, eq_next_after (by decide), by decide, eq_next_after (by decide), by decide⟩

/-- Vector F1, and the empty payload of vector F5's kind at the floor. -/
theorem witness_FragmentationIsCompleteAndFaithful :
    (f1.phase = .idle ∧ f1.resetIn = false ∧ 65532 ≤ f1.fb.size ∧ f1Ops.len.toNat ≤ f1.inBuf.size
      ∧ f1.params.mtuMin ≤ f1Ops.aux.toNat ∧ f1.req = .present (encode (.frag f1Ops)) :: []
      ∧ f1.sink = List.replicate (fragCount f1Ops.len.toNat f1Ops.aux.toNat) 0 ++ [])
    ∧ (let o := { f1Ops with len := 0, aux := 28 };
      let s := start [] [] [] (encode (.frag o));
      s.phase = .idle ∧ s.resetIn = false ∧ 65532 ≤ s.fb.size ∧ o.len.toNat ≤ s.inBuf.size
        ∧ s.params.mtuMin ≤ o.aux.toNat ∧ s.req = .present (encode (.frag o)) :: []
        ∧ s.sink = List.replicate (fragCount o.len.toNat o.aux.toNat) 0 ++ []) := by decide

/-- The first call refused, and the last. -/
theorem witness_RefusedFragmentEndsTheRun :
    (let s := start (ramp 25) [] [1] (encode (.frag f1Ops));
      s.phase = .idle ∧ s.resetIn = false ∧ 65532 ≤ s.fb.size ∧ f1Ops.len.toNat ≤ s.inBuf.size
        ∧ s.params.mtuMin ≤ f1Ops.aux.toNat ∧ s.req = .present (encode (.frag f1Ops)) :: [] ∧ 1 ≤ 1
        ∧ 1 ≤ fragCount f1Ops.len.toNat f1Ops.aux.toNat ∧ s.sink = List.replicate (1 - 1) 0 ++ 1 :: [])
    ∧ (let s := start (ramp 25) [] [0, 1] (encode (.frag f1Ops));
      s.phase = .idle ∧ s.resetIn = false ∧ 65532 ≤ s.fb.size ∧ f1Ops.len.toNat ≤ s.inBuf.size
        ∧ s.params.mtuMin ≤ f1Ops.aux.toNat ∧ s.req = .present (encode (.frag f1Ops)) :: [] ∧ 1 ≤ 2
        ∧ 2 ≤ fragCount f1Ops.len.toNat f1Ops.aux.toNat ∧ s.sink = List.replicate (2 - 1) 0 ++ 1 :: [] ∧ (25 : Nat) < 2 * 16)
      := by decide

/-- The invariant steps: from idle, from a pending call, and between calls. -/
theorem witness_StepKeepsTheInvariant :
    (Machine.Inv f1 ∧ ∃ t, step f1 = .next t) ∧ (Machine.Inv f1Call1 ∧ ∃ t, step f1Call1 = .next t)
      ∧ Machine.Inv f1Head1 ∧ ∃ t, step f1Head1 = .next t :=
  ⟨⟨inv_f1, _, eq_next_after (by decide)⟩, ⟨inv_f1Call1, _, eq_next_after (by decide)⟩, inv_f1Head1, _,
    eq_next_after (by decide)⟩

/-- A running command: during a sink call, and between calls. -/
theorem witness_LaunchRefusedExactlyWhenBuffersAreShort_rounds :
    (Machine.Inv f1Call1 ∧ f1Call1.phase ≠ .idle) ∧ Machine.Inv f1Head1 ∧ f1Head1.phase ≠ .idle :=
  ⟨⟨inv_f1Call1, by decide⟩, inv_f1Head1, by decide⟩

/-- A sink call answered 0: the next slice begins where this one ends. -/
theorem witness_CommandsReadOnlyTheirReadSet_order :
    Machine.Inv f1Call1 ∧ f1Call1.phase = .sinkWait ∧ f1Call1.resetIn = false ∧ step f1Call1 = .next f1Head1
      ∧ f1Head1.phase = .run :=
  ⟨inv_f1Call1, by decide, by decide, eq_next_after (by decide), by decide⟩

/-- A later round that makes a sink call, one that completes, and an answer. -/
theorem witness_CommandsWriteOnlyTheirWriteSet_rounds :
    (Machine.Inv f1Head1 ∧ f1Head1.phase ≠ .idle ∧ f1Head1.resetIn = false ∧ f1Head1.phase = .run
      ∧ step f1Head1 = .next f1Call2 ∧ f1Call2.phase = .sinkWait ∧ f1Call2.work.fbLen.toNat ≤ 29)
    ∧ (Machine.Inv f1Head2 ∧ f1Head2.phase ≠ .idle ∧ f1Head2.resetIn = false
      ∧ ∃ t, step f1Head2 = .next t ∧ t.phase = .idle)
    ∧ Machine.Inv f1Call1 ∧ f1Call1.phase ≠ .idle ∧ f1Call1.resetIn = false ∧ step f1Call1 = .next f1Head1
      ∧ f1Call1.phase = .sinkWait :=
  ⟨⟨inv_f1Head1, by decide, by decide, by decide, eq_next_after (by decide), by decide, by decide⟩,
    ⟨inv_f1Head2, by decide, by decide, after (step f1Head2), eq_next_after (by decide), by decide⟩,
    inv_f1Call1, by decide, by decide, eq_next_after (by decide), by decide⟩

theorem witness_StepNeverLeavesTheBuffers : Machine.Inv f1 ∧ Machine.Inv f1Call1 ∧ f1Call1.phase ≠ .idle :=
  ⟨inv_f1, inv_f1Call1, by decide⟩

end Sys2Proof.Tests
end

section
/-! PROOFS. The machine's state and steps (`10_state.md`): what one step can do, said once for all statements of the
family, then the invariant and its preservation. -/

namespace Sys2Proof.Machine

/-! ### What a round of FRAG leaves as it was -/

@[simp] theorem prepared_params (s : State) : (prepared s).params = s.params := rfl
@[simp] theorem prepared_cmd (s : State) : (prepared s).cmd = s.cmd := rfl
@[simp] theorem prepared_res (s : State) : (prepared s).res = s.res := rfl
@[simp] theorem prepared_phase (s : State) : (prepared s).phase = .sinkWait := rfl
@[simp] theorem prepared_inBuf (s : State) : (prepared s).inBuf = s.inBuf := rfl
@[simp] theorem prepared_outBuf (s : State) : (prepared s).outBuf = s.outBuf := rfl
@[simp] theorem prepared_fb_size (s : State) : (prepared s).fb.size = s.fb.size := rfl
@[simp] theorem prepared_req (s : State) : (prepared s).req = s.req := rfl
@[simp] theorem prepared_sink (s : State) : (prepared s).sink = s.sink := rfl
@[simp] theorem prepared_resetIn (s : State) : (prepared s).resetIn = s.resetIn := rfl
@[simp] theorem prepared_cap (s : State) : (prepared s).work.cap = s.work.cap := rfl
@[simp] theorem prepared_off (s : State) : (prepared s).work.off = s.work.off := rfl
@[simp] theorem prepared_cnt (s : State) : (prepared s).work.cnt = s.work.cnt + 1 := rfl
@[simp] theorem prepared_n (s : State) : (prepared s).work.n =
    BitVec.ofNat 16 (sliceLen s.work.cap.toNat s.work.off.toNat s.cmd.len.toNat) := rfl
@[simp] theorem prepared_mf (s : State) : (prepared s).work.mf =
    sliceMf s.work.off.toNat (sliceLen s.work.cap.toNat s.work.off.toNat s.cmd.len.toNat) s.cmd.len.toNat := rfl

/-! ### The SINK's answer -/

/-- `s` after the answer 0 (R131): `off` has moved past the slice and the block runs on. -/
def wentOn (s : State) : State :=
  { s with phase := .run, work := { s.work with off := s.work.off + s.work.n }, draws := s.draws + 1 }

theorem fragAnswer_zero (s : State) : fragAnswer 0#1 s = wentOn s := rfl

theorem fragAnswer_one (s : State) : fragAnswer 1#1 s = deliverValue stSinkAborted s.work.cnt s := rfl

/-! ### What one step can do -/

/-- What an accepted command comes to in its first step: a completion that leaves the buffers alone, a packet in OUT,
or FRAG's first sink call.  `execCsum_next` to `execFrag_next` say what the result is. -/
inductive FirstStep (s : State) : Instr → State → Prop
  | completed (i : Instr) (r : Res) (done : r.done = 1) (status : r.status ≠ 7) :
    FirstStep s i (deliver r (accept { i.operands with op := i.op } s))
  | packet (o : Operands) (r : Res) (done : r.done = 1) (status : r.status ≠ 7)
    (room : 20 + o.len.toNat ≤ s.outBuf.size) :
    FirstStep s (.assemble o) (deliver r { accept { o with op := 3 } s with outBuf := assembled o s })
  | called (o : Operands) (input : o.len.toNat ≤ s.inBuf.size) (mtu : s.params.mtuMin ≤ o.aux.toNat)
    (left : 0 < o.len.toNat) (room : 20 + sliceLen (capacity o.aux).toNat 0 o.len.toNat ≤ s.fb.size) :
    FirstStep s (.frag o) (prepared (fragStarted o s))

theorem exec_firstStep {i : Instr} {s t : State} (h : exec i s = .next t) : FirstStep s i t := by
  cases i with
  | csum o =>
    obtain ⟨-, rfl⟩ := execCsum_next.1 h
    exact .completed (.csum o) _ rfl (by decide : stOk ≠ 7)
  | build o =>
    obtain rfl := execBuild_next.1 h
    exact .completed (.build o) _ rfl (by decide : stOk ≠ 7)
  | assemble o =>
    obtain ⟨-, hout, h⟩ := execAssemble_next.1 h
    split at h
    · subst h; exact .completed (.assemble o) _ rfl (by decide : stLengthRange ≠ 7)
    · split at h
      · subst h; exact .completed (.assemble o) _ rfl (by decide : stBufferTooSmall ≠ 7)
      · subst h; exact .packet o _ rfl (by decide : stOk ≠ 7) (by omega)
  | parse o =>
    obtain ⟨-, ⟨-, rfl⟩ | ⟨-, rfl⟩⟩ := execParse_next_iff.1 h
    · exact .completed (.parse o) _ rfl (by decide : stStructurallyInvalidHeader ≠ 7)
    · exact .completed (.parse o) _ rfl (by decide : stOk ≠ 7)
  | frag o =>
    obtain ⟨hin, h⟩ := execFrag_next.1 h
    split at h
    · subst h; exact .completed (.frag o) _ rfl (by decide : stMtuTooSmall ≠ 7)
    · rename_i hmtu
      obtain ⟨-, ⟨left, room, rfl⟩ | ⟨-, rfl⟩⟩ := fragNext_next.1 h
      · exact .called o hin (Nat.le_of_not_lt hmtu) left room
      · exact .completed (.frag o) _ rfl (by decide : stOk ≠ 7)

/-- Everything one step can do, with the guard of each case: `step_next` and the lemmas it rests on, in one list. -/
inductive StepCase (s : State) : State → Prop
  | reset (line : s.resetIn = true) : StepCase s (blockReset s)
  | noRequest (line : s.resetIn = false) (phase : s.phase = .idle) (req : s.req = []) : StepCase s s
  | fillIn (line : s.resetIn = false) (phase : s.phase = .idle) {bs : List Byte} {rest : List ReqStep}
    (req : s.req = .fillIn bs :: rest) : StepCase s (reqFillIn bs { s with req := rest })
  | provideOut (line : s.resetIn = false) (phase : s.phase = .idle) {bs : List Byte} {rest : List ReqStep}
    (req : s.req = .provideOut bs :: rest) : StepCase s (reqProvideOut bs { s with req := rest })
  | launch (line : s.resetIn = false) (phase : s.phase = .idle) {d : Desc} {rest : List ReqStep} {i : Instr}
    {t : State} (req : s.req = .present d :: rest) (legal : decode d = .ok i)
    (first : FirstStep { s with req := rest } i t) : StepCase s t
  | illegal (line : s.resetIn = false) (phase : s.phase = .idle) {d : Desc} {rest : List ReqStep} {r : Reject}
    (req : s.req = .present d :: rest) (reject : decode d = .error r) :
    StepCase s (illegalCommand { d.operands with op := d.op } { s with req := rest })
  | nextCall (line : s.resetIn = false) (phase : s.phase = .run) (input : s.cmd.len.toNat ≤ s.inBuf.size)
    (left : s.work.off.toNat < s.cmd.len.toNat)
    (room : 20 + sliceLen s.work.cap.toNat s.work.off.toNat s.cmd.len.toNat ≤ s.fb.size) :
    StepCase s (prepared s)
  | finished (line : s.resetIn = false) (phase : s.phase = .run) (input : s.cmd.len.toNat ≤ s.inBuf.size)
    (allSent : s.cmd.len.toNat ≤ s.work.off.toNat) : StepCase s (deliverValue stOk s.work.cnt s)
  | noAnswer (line : s.resetIn = false) (phase : s.phase = .sinkWait) (sink : s.sink = []) : StepCase s s
  | answeredZero (line : s.resetIn = false) (phase : s.phase = .sinkWait) {rest : List (BitVec 1)}
    (sink : s.sink = 0 :: rest) : StepCase s (wentOn { s with sink := rest })
  | answeredOne (line : s.resetIn = false) (phase : s.phase = .sinkWait) {rest : List (BitVec 1)}
    (sink : s.sink = 1 :: rest) :
    StepCase s (deliverValue stSinkAborted s.work.cnt { s with sink := rest })

theorem step_stepCase {s t : State} (h : step s = .next t) : StepCase s t := by
  obtain ⟨line, rfl⟩ | ⟨line, phase, h⟩ | ⟨line, phase, h⟩ | ⟨line, phase, h⟩ := step_next.1 h
  · exact .reset line
  · obtain ⟨req, rfl⟩ | ⟨bs, rest, req, rfl⟩ | ⟨bs, rest, req, rfl⟩ | ⟨d, rest, i, req, hd, h⟩
        | ⟨d, rest, r, req, hd, rfl⟩ := stepIdle_next.1 h
    · exact .noRequest line phase req
    · exact .fillIn line phase req
    · exact .provideOut line phase req
    · exact .launch line phase req hd (exec_firstStep h)
    · exact .illegal line phase req hd
  · obtain ⟨input, ⟨left, room, rfl⟩ | ⟨done, rfl⟩⟩ := fragNext_next.1 h
    · exact .nextCall line phase input left room
    · exact .finished line phase input done
  · obtain ⟨sink, rfl⟩ | ⟨rc, rest, sink, rfl⟩ := stepSinkWait_next.1 h
    · exact .noAnswer line phase sink
    · obtain rfl | rfl := BitVec.eq_zero_or_eq_one rc
      · rw [fragAnswer_zero]; exact .answeredZero line phase sink
      · rw [fragAnswer_one]; exact .answeredOne line phase sink

/-! ### The invariant: idle states -/

/-- The part of the invariant that speaks of the buffers. -/
structure BuffersWf (inBuf outBuf fb : Buffer) : Prop where
  input : inBuf.wf
  output : outBuf.wf
  fragment : fb.wf
  fbSize : 65532 ≤ fb.size

theorem Inv.buffers {s : State} (h : Inv s) : BuffersWf s.inBuf s.outBuf s.fb := { h with }

theorem BuffersWf.inv_of_idle {s : State} (hb : BuffersWf s.inBuf s.outBuf s.fb) (hacc : s.work.acc < 2 ^ s.params.accW)
    (hphase : s.phase = .idle) (hstatus : s.res.done = 1 → s.res.status ≠ 7) : Inv s :=
  { hb with
    acc := hacc
    done := fun _ => hphase
    status := hstatus
    run := fun h => by simp [hphase] at h
    call := fun h => by simp [hphase] at h }

theorem Inv.of_idle_buffers {s t : State} (h : Inv s) (hphase : s.phase = .idle) (hb : BuffersWf t.inBuf t.outBuf t.fb)
    (hp : t.params = s.params) (hr : t.res = s.res) (hph : t.phase = s.phase) (hw : t.work = s.work) : Inv t :=
  hb.inv_of_idle (by rw [hw, hp]; exact h.acc) (by rw [hph, hphase]) (by rw [hr]; exact h.status)

theorem work_free_acc_lt (w k : Nat) : (Work.free w k).acc < 2 ^ w := BitVec.isLt _

theorem BuffersWf.inv_deliver {s : State} (hb : BuffersWf s.inBuf s.outBuf s.fb) {r : Res} (hstatus : r.status ≠ 7) :
    Inv (deliver r s) :=
  BuffersWf.inv_of_idle hb (work_free_acc_lt _ _) rfl fun _ => hstatus

theorem BuffersWf.inv_illegalCommand {s : State} (hb : BuffersWf s.inBuf s.outBuf s.fb) (c : Cmd) :
    Inv (illegalCommand c s) :=
  BuffersWf.inv_deliver (s := accept c s) hb (by decide : stIllegalCommand ≠ 7)

theorem BuffersWf.inv_blockReset {s : State} (hb : BuffersWf s.inBuf s.outBuf s.fb) : Inv (blockReset s) :=
  BuffersWf.inv_of_idle hb (work_free_acc_lt _ _) rfl fun h => by
    simp at h

/-- The packet a successful ASSEMBLE writes lies inside OUT, so OUT stays in canonical form. -/
theorem assembled_wf {o : Operands} {s : State} (hwf : s.outBuf.wf) (room : 20 + o.len.toNat ≤ s.outBuf.size) :
    (assembled o s).wf := by
  have hpayload : Config.hdrLen + (s.inBuf.bytes 0 o.len.toNat).length ≤ s.outBuf.size := by simpa using room
  have hheader : 0 + (unfragmentedHeader s.params o (BitVec.ofNat 16 (Config.hdrLen + o.len.toNat))).toList.length
      ≤ s.outBuf.size := by simp; omega
  exact Buffer.write_wf (Buffer.write_wf hwf _ _ hpayload) _ _ hheader

/-! ### The invariant: a sink call, and the head of the loop -/

/-- An MTU that passed the floor gives a capacity of 8 to 65512 bytes (R127). -/
theorem FragRunning.cap_bounds {s : State} (h : FragRunning s) : 8 ≤ s.work.cap.toNat ∧ s.work.cap.toNat ≤ 65512 := by
  have hmtu : 28 ≤ s.cmd.aux.toNat := le_trans (Nat.le_add_right _ _) h.mtu
  have hlt := s.cmd.aux.isLt
  rw [h.cap, capacity_toNat _ (by omega)]
  omega

/-- The count cannot wrap: every counted slice before the last took at least 8 bytes of a 16-bit length (R137). -/
theorem count_lt_of_mul_lt {n cap : Nat} {len : Half} (hcap : 8 ≤ cap) (h : n * cap < len.toNat) : n < 8192 := by
  have := len.isLt
  have : n * 8 ≤ n * cap := Nat.mul_le_mul_left n hcap
  omega

/-- The slice of a round, as a 16-bit register holds it. -/
theorem FragRunning.slice_toNat {s : State} (h : FragRunning s) :
    (BitVec.ofNat 16 (sliceLen s.work.cap.toNat s.work.off.toNat s.cmd.len.toNat)).toNat
      = sliceLen s.work.cap.toNat s.work.off.toNat s.cmd.len.toNat := by
  have hle : sliceLen s.work.cap.toNat s.work.off.toNat s.cmd.len.toNat ≤ 65512 :=
    le_trans (Nat.min_le_left _ _) h.cap_bounds.2
  rw [BitVec.toNat_ofNat, Nat.mod_eq_of_lt (by omega)]

theorem FragRunning.inSinkCall_prepared {s : State} (h : FragRunning s)
    (hoff : s.work.off.toNat = s.work.cnt.toNat * s.work.cap.toNat) (left : s.work.off.toNat < s.cmd.len.toNat) :
    InSinkCall (prepared s) := by
  obtain ⟨hcap8, hcap⟩ := h.cap_bounds
  have hcnt : s.work.cnt.toNat < 8192 := count_lt_of_mul_lt hcap8 (hoff ▸ left)
  have hcnt' : (prepared s).work.cnt.toNat = s.work.cnt.toNat + 1 := by
    rw [prepared_cnt, BitVec.toNat_add]; simp; omega
  exact
    { op := h.op, mtu := h.mtu, cap := h.cap, busy := h.busy, input := h.input
      counted := by omega
      off := by rw [hcnt', Nat.add_sub_cancel]; exact hoff
      left := left
      slice := h.slice_toNat
      mf := by simp only [prepared_n, h.slice_toNat]; rfl
      fbLen := by rw [prepared_fbLen s hcap, prepared_n, h.slice_toNat]
      handed := by rw [prepared_bytes s hcap, prepared_n, h.slice_toNat]; rfl }

/-- A fragment that fits FB leaves it in canonical form. -/
theorem BuffersWf.wf_prepared {s : State} (hb : BuffersWf s.inBuf s.outBuf s.fb)
    (room : 20 + sliceLen s.work.cap.toNat s.work.off.toNat s.cmd.len.toNat ≤ s.fb.size) :
    BuffersWf s.inBuf s.outBuf (prepared s).fb :=
  { hb with
    fragment := by
      refine Buffer.write_wf (Buffer.write_wf hb.fragment _ _ ?_) _ _ ?_
      · simp; omega
      · simpa using room }

theorem BuffersWf.inv_prepared {s : State} (hb : BuffersWf s.inBuf s.outBuf s.fb) (h : FragRunning s)
    (room : 20 + sliceLen s.work.cap.toNat s.work.off.toNat s.cmd.len.toNat ≤ s.fb.size)
    (hoff : s.work.off.toNat = s.work.cnt.toNat * s.work.cap.toNat) (left : s.work.off.toNat < s.cmd.len.toNat) :
    Inv (prepared s) :=
  { hb.wf_prepared room with
    acc := by
      have hw : 2 ^ 16 ≤ 2 ^ s.params.accW := Nat.pow_le_pow_right (by omega) (by unfold Config.Params.accW; omega)
      exact lt_of_lt_of_le (sum16Acc_lt s.params _) hw
    done := fun hdone => by simp [h.busy] at hdone
    status := fun hdone => by simp [h.busy] at hdone
    run := fun hphase => by simp at hphase
    call := fun _ => h.inSinkCall_prepared hoff left }

/-- Going on after the answer 0: `off` ends where the slice ends, which is `cnt` capacities or the payload's end. -/
theorem InSinkCall.atLoopHead_wentOn {s : State} (h : InSinkCall s) : AtLoopHead (wentOn s) := by
  have hsucc : s.work.cnt.toNat * s.work.cap.toNat
      = (s.work.cnt.toNat - 1) * s.work.cap.toNat + s.work.cap.toNat := by
    conv_lhs => rw [← Nat.sub_add_cancel h.counted, Nat.succ_mul]
  have hslice : s.work.n.toNat = min s.work.cap.toNat (s.cmd.len.toNat - s.work.off.toNat) := h.slice
  have hoff := h.off
  have hleft := h.left
  have hlen := s.cmd.len.isLt
  exact
    { op := h.op, mtu := h.mtu, cap := h.cap, busy := h.busy, input := h.input
      counted := h.counted
      last := show (s.work.cnt.toNat - 1) * s.work.cap.toNat < s.cmd.len.toNat from hoff ▸ hleft
      off := by
        show (s.work.off + s.work.n).toNat = min (s.work.cnt.toNat * s.work.cap.toNat) s.cmd.len.toNat
        rw [BitVec.toNat_add, Nat.mod_eq_of_lt (by omega), hsucc, ← hoff]
        omega }

theorem Inv.inv_wentOn {s : State} (h : Inv s) (phase : s.phase = .sinkWait) : Inv (wentOn s) :=
  have hcall := h.call phase
  { input := h.input, output := h.output, fragment := h.fragment, fbSize := h.fbSize, acc := h.acc
    done := fun hdone => absurd (hcall.busy.symm.trans hdone) (by decide)
    status := fun hdone => absurd (hcall.busy.symm.trans hdone) (by decide)
    run := fun _ => hcall.atLoopHead_wentOn
    call := fun hphase => by simp [wentOn] at hphase }

/-- The invariant does not speak of the answers to come. -/
theorem Inv.with_sink {s : State} (h : Inv s) (answers : List (BitVec 1)) : Inv { s with sink := answers } :=
  { h with
    run := fun hphase => { h.run hphase with }
    call := fun hphase => { h.call hphase with } }

/-! ### Every step keeps the invariant -/

theorem FirstStep.inv {s t : State} {i : Instr} (h : FirstStep s i t) (hb : BuffersWf s.inBuf s.outBuf s.fb) : Inv t := by
  cases h with
  | completed _ r done status =>
    exact BuffersWf.inv_deliver (s := accept _ s) hb status
  | packet o r done status room =>
    exact BuffersWf.inv_deliver (s := { accept _ s with outBuf := assembled o s })
      { hb with output := assembled_wf hb.output room } status
  | called o input mtu left room =>
    have hrun : FragRunning (fragStarted o s) := { op := rfl, mtu := mtu, cap := rfl, busy := rfl, input := input }
    exact BuffersWf.inv_prepared hb hrun room (Nat.zero_mul _).symm left

/-- Settles O47: each case of a step ends in an idle state with its buffers in order, in a sink call, or at the head
of the loop. -/
theorem stepKeepsTheInvariant : Obligations.StepKeepsTheInvariant := by
  intro s t inv h
  have hb := inv.buffers
  cases step_stepCase h with
  | reset line => exact hb.inv_blockReset
  | noRequest line phase req => exact inv
  | fillIn line phase req =>
    exact inv.of_idle_buffers phase { hb with input := Buffer.ofBytes_wf _ } rfl rfl rfl rfl
  | provideOut line phase req =>
    exact inv.of_idle_buffers phase { hb with output := Buffer.ofBytes_wf _ } rfl rfl rfl rfl
  | launch line phase req legal first => exact first.inv hb
  | @illegal line phase d rest r req reject =>
    exact BuffersWf.inv_illegalCommand (s := { s with req := rest }) hb _
  | nextCall line phase input left room =>
    have head := inv.run phase
    have hoff : s.work.off.toNat = s.work.cnt.toNat * s.work.cap.toNat := by have := head.off; omega
    exact hb.inv_prepared head.toFragRunning room hoff left
  | finished line phase input allSent => exact BuffersWf.inv_deliver hb (by decide : stOk ≠ 7)
  | noAnswer line phase sink => exact inv
  | @answeredZero line phase rest sink =>
    exact (inv.with_sink rest).inv_wentOn phase
  | @answeredOne line phase rest sink =>
    exact BuffersWf.inv_deliver (s := { s with sink := rest }) hb (by decide : stSinkAborted ≠ 7)

end Sys2Proof.Machine
end

section
/-! PROOFS. The agents, the phases and the buffers' writers (`10_state.md`, `70_reset_and_hazards.md`). -/

namespace Sys2Proof.Machine

/-! ### The step in each phase -/

theorem step_of_idle {s : State} (line : s.resetIn = false) (phase : s.phase = .idle) : step s = stepIdle s := by
  simp [step, line, phase]

theorem step_of_run {s : State} (line : s.resetIn = false) (phase : s.phase = .run) : step s = fragNext s := by
  simp [step, line, phase]

theorem step_of_sinkWait {s : State} (line : s.resetIn = false) (phase : s.phase = .sinkWait) :
    step s = stepSinkWait s := by
  simp [step, line, phase]

/-- Settles O7: the idle step takes the descriptor, and a legal one is its command. -/
theorem stepRunsPresentedCommand : Obligations.StepRunsPresentedCommand := by
  intro s d i rest phase line req legal
  have htaken : stepIdle s = present d { s with req := rest } := by rw [stepIdle, req]
  rw [step_of_idle line phase, htaken, present, legal]

/-- Settles O8: the cases of a step that start in RUN or SINK_WAIT touch neither REQ's list nor what REQ provides. -/
theorem busyBlockAcceptsNothing : Obligations.BusyBlockAcceptsNothing := by
  intro s t busy line h
  cases step_stepCase h with
  | reset line' => simp [line] at line'
  | noRequest _ phase _ | fillIn _ phase _ | provideOut _ phase _ | launch _ phase _ _ _ | illegal _ phase _ _ =>
    exact absurd phase busy
  | nextCall | finished | noAnswer | answeredZero | answeredOne => exact ⟨rfl, rfl, rfl, rfl, rfl⟩

/-! ### The phase table of R17 -/

/-- Row IDLE, while no descriptor is presented. -/
theorem idle_step_without_descriptor {s t : State} (line : s.resetIn = false) (phase : s.phase = .idle)
    (none : ∀ d rest, s.req ≠ .present d :: rest) (h : step s = .next t) :
    t.phase = .idle ∧ t.res = s.res ∧ t.sink = s.sink := by
  rw [step_of_idle line phase] at h
  obtain ⟨-, rfl⟩ | ⟨bs, rest, -, rfl⟩ | ⟨bs, rest, -, rfl⟩ | ⟨d, rest, i, req, -⟩ | ⟨d, rest, r, req, -⟩ :=
    stepIdle_next.1 h
  · exact ⟨phase, rfl, rfl⟩
  · exact ⟨phase, rfl, rfl⟩
  · exact ⟨phase, rfl, rfl⟩
  · exact absurd req (none d rest)
  · exact absurd req (none d rest)

/-- Row RUN: a sink call, or the completion. -/
theorem run_step {s t : State} (line : s.resetIn = false) (phase : s.phase = .run) (h : step s = .next t) :
    (t.phase = .idle ∧ t.res.done = 1 ∨ t.phase = .sinkWait ∧ t.res = s.res) ∧ t.sink = s.sink := by
  rw [step_of_run line phase] at h
  obtain ⟨-, ⟨-, -, rfl⟩ | ⟨-, rfl⟩⟩ := fragNext_next.1 h
  · exact ⟨.inr ⟨rfl, rfl⟩, rfl⟩
  · exact ⟨.inl ⟨rfl, rfl⟩, rfl⟩

/-- Row SINK_WAIT: no answer, the answer 0, or the answer 1. -/
theorem sinkWait_step {s t : State} (line : s.resetIn = false) (phase : s.phase = .sinkWait) (h : step s = .next t) :
    t = s ∧ s.sink = [] ∨ s.sink = 0 :: t.sink ∧ t.phase = .run ∧ t.res = s.res
      ∨ s.sink = 1 :: t.sink ∧ Completed t stSinkAborted := by
  rw [step_of_sinkWait line phase] at h
  obtain ⟨sink, rfl⟩ | ⟨rc, rest, sink, rfl⟩ := stepSinkWait_next.1 h
  · exact .inl ⟨rfl, sink⟩
  · obtain rfl | rfl := BitVec.eq_zero_or_eq_one rc
    · exact .inr (.inl ⟨sink, rfl, rfl⟩)
    · exact .inr (.inr ⟨sink, rfl, rfl, rfl⟩)

/-- Settles O10: one lemma per row of the table. -/
theorem phasesChangeOnlyAsTheTableSays : Obligations.PhasesChangeOnlyAsTheTableSays := fun _ _ line h =>
  ⟨fun phase none => idle_step_without_descriptor line phase none h, fun phase => run_step line phase h,
    fun phase => sinkWait_step line phase h⟩

/-! ### The writers of the buffers -/

/-- Settles O11: REQ's two steps put `Buffer.ofBytes` in place, which reads as the bytes it was made of. -/
theorem reqProvidesBuffersWhileIdle : Obligations.ReqProvidesBuffersWhileIdle := by
  intro s bs rest phase line
  refine ⟨fun req => ⟨Buffer.ofBytes bs, ?_, rfl, fun a _ => Buffer.read_ofBytes bs a⟩,
    fun req => ⟨Buffer.ofBytes bs, ?_, rfl, fun a _ => Buffer.read_ofBytes bs a⟩⟩
  · rw [step_of_idle line phase]
    exact stepIdle_next.2 (.inr (.inl ⟨bs, rest, req, rfl⟩))
  · rw [step_of_idle line phase]
    exact stepIdle_next.2 (.inr (.inr (.inl ⟨bs, rest, req, rfl⟩)))

theorem FirstStep.params_eq {s t : State} {i : Instr} (h : FirstStep s i t) : t.params = s.params := by
  cases h <;> rfl

theorem FirstStep.inBuf_eq {s t : State} {i : Instr} (h : FirstStep s i t) : t.inBuf = s.inBuf := by
  cases h <;> rfl

theorem FirstStep.assemble_of_outBuf_ne {s t : State} {i : Instr} (h : FirstStep s i t) (ne : t.outBuf ≠ s.outBuf) :
    ∃ o, i = .assemble o := by
  cases h with
  | completed | called => exact absurd rfl ne
  | packet o => exact ⟨o, rfl⟩

theorem FirstStep.frag_of_fb_ne {s t : State} {i : Instr} (h : FirstStep s i t) (ne : t.fb ≠ s.fb) :
    ∃ o, i = .frag o := by
  cases h with
  | completed | packet => exact absurd rfl ne
  | called o => exact ⟨o, rfl⟩

theorem inBuf_writer {s t : State} (h : step s = .next t) (ne : t.inBuf ≠ s.inBuf) :
    s.phase = .idle ∧ ∃ bs rest, s.req = .fillIn bs :: rest := by
  cases step_stepCase h with
  | fillIn _ phase req => exact ⟨phase, _, _, req⟩
  | launch _ _ _ _ first => exact absurd first.inBuf_eq ne
  | reset | noRequest | provideOut | illegal | nextCall | finished | noAnswer | answeredZero | answeredOne =>
    exact absurd rfl ne

theorem outBuf_writer {s t : State} (h : step s = .next t) (ne : t.outBuf ≠ s.outBuf) :
    s.phase = .idle ∧ ((∃ bs rest, s.req = .provideOut bs :: rest)
      ∨ ∃ d rest o, s.req = .present d :: rest ∧ decode d = .ok (.assemble o)) := by
  cases step_stepCase h with
  | provideOut _ phase req => exact ⟨phase, .inl ⟨_, _, req⟩⟩
  | launch _ phase req legal first =>
    obtain ⟨o, rfl⟩ := first.assemble_of_outBuf_ne ne
    exact ⟨phase, .inr ⟨_, _, o, req, legal⟩⟩
  | reset | noRequest | fillIn | illegal | nextCall | finished | noAnswer | answeredZero | answeredOne =>
    exact absurd rfl ne

theorem fb_writer {s t : State} (h : step s = .next t) (ne : t.fb ≠ s.fb) :
    s.phase = .run ∨ s.phase = .idle ∧ ∃ d rest o, s.req = .present d :: rest ∧ decode d = .ok (.frag o) := by
  cases step_stepCase h with
  | nextCall _ phase => exact .inl phase
  | launch _ phase req legal first =>
    obtain ⟨o, rfl⟩ := first.frag_of_fb_ne ne
    exact .inr ⟨phase, _, _, o, req, legal⟩
  | reset | noRequest | fillIn | provideOut | illegal | finished | noAnswer | answeredZero | answeredOne =>
    exact absurd rfl ne

/-- Settles O12: one lemma per buffer. -/
theorem buffersHaveOneWriter : Obligations.BuffersHaveOneWriter :=
  fun _ _ h => ⟨inBuf_writer h, outBuf_writer h, fb_writer h⟩

/-- Settles O13, by the cases of a step. -/
theorem parametersNeverChange : Obligations.ParametersNeverChange := by
  intro s t h
  cases step_stepCase h with
  | launch _ _ _ _ first => exact first.params_eq
  | reset | noRequest | fillIn | provideOut | illegal | nextCall | finished | noAnswer | answeredZero | answeredOne =>
    rfl

/-! ### Reset -/

/-- Settles O15. -/
theorem resetMakesTheBlockIdle : Obligations.ResetMakesTheBlockIdle := ⟨rfl, rfl, rfl⟩

/-- Settles O16: the reset line is looked at first, and `blockReset` is the whole step. -/
theorem resetAbandonsTheCommand : Obligations.ResetAbandonsTheCommand := by
  intro s line
  have hsink : (blockReset s).sink = if s.phase = .sinkWait then s.sink.drop 1 else s.sink := by
    rw [blockReset_sink, List.drop_one]
  exact ⟨blockReset s, step_next.2 (.inl ⟨line, rfl⟩), rfl, rfl, rfl, rfl, rfl, rfl, rfl, rfl, hsink⟩

/-- Settles O46: an idle state with fresh buffers, `acc = 0` and no result. -/
theorem invariantHoldsAtReset : Obligations.InvariantHoldsAtReset :=
  BuffersWf.inv_of_idle ⟨Buffer.fresh_wf _, Buffer.fresh_wf _, Buffer.fresh_wf _, le_refl _⟩ (Nat.two_pow_pos _) rfl
    fun h => absurd h (by decide)

end Sys2Proof.Machine
end

section
/-! PROOFS. No state from earlier commands (R10): two runs that agree on what a command may look at do alike. -/

namespace Sys2Proof.Machine

/-! ### One round of FRAG -/

/-- Two machines agree on everything a round of FRAG looks at (R37, R130): the parameters, the command, the registers
of the run, the bytes of the slice, and the lengths of IN and FB. -/
structure SameRound (s s' : State) : Prop where
  params : s'.params = s.params
  cmd : s'.cmd = s.cmd
  cap : s'.work.cap = s.work.cap
  off : s'.work.off = s.work.off
  cnt : s'.work.cnt = s.work.cnt
  inSize : s'.inBuf.size = s.inBuf.size
  fbSize : s'.fb.size = s.fb.size
  slice : ∀ a, s.work.off.toNat ≤ a → a < s.work.off.toNat + s.work.cap.toNat → a < s.cmd.len.toNat →
    s'.inBuf.read a = s.inBuf.read a

/-- Two rounds of FRAG came to the same: in the phase, the fragment handed over, the result and the registers. -/
structure RoundAlike (t t' : State) : Prop where
  phase : t'.phase = t.phase
  sinkCall : t'.sinkCall = t.sinkCall
  result : t.phase = .idle →
    t'.res.done = t.res.done ∧ t'.res.status = t.res.status ∧ t'.res.value = t.res.value
  work : t.phase ≠ .idle → t'.work = t.work

/-- A round writes every transient register but `cap` and `off`, from what the two machines share. -/
theorem SameRound.prepared_work {s s' : State} (h : SameRound s s') : (prepared s').work = (prepared s).work := by
  simp only [prepared, callSink, h.params, h.cmd, h.cap, h.off, h.cnt]

/-- `fb_len` never exceeds what the round wrote, even where the 16-bit sum wraps. -/
theorem prepared_fbLen_le (s : State) : (prepared s).work.fbLen.toNat
    ≤ 20 + sliceLen s.work.cap.toNat s.work.off.toNat s.cmd.len.toNat := by
  rw [prepared, callSink_fbLen, BitVec.toNat_ofNat]
  exact Nat.mod_le _ _

theorem SameRound.prepared_read {s s' : State} (h : SameRound s s') {a : Nat}
    (ha : a < 20 + sliceLen s.work.cap.toNat s.work.off.toNat s.cmd.len.toNat) :
    (prepared s').fb.read a = (prepared s).fb.read a := by
  rw [Machine.prepared_read, Machine.prepared_read, h.params, h.cmd, h.cap, h.off]
  by_cases hheader : a < 20
  · rw [if_pos hheader, if_pos hheader]
  · rw [if_neg hheader, if_neg hheader, if_pos ha, if_pos ha]
    unfold sliceLen at ha
    exact h.slice _ (by omega) (by omega) (by omega)

theorem SameRound.prepared_sinkCall {s s' : State} (h : SameRound s s') :
    (prepared s').sinkCall = (prepared s).sinkCall := by
  rw [Machine.prepared_sinkCall, Machine.prepared_sinkCall, h.prepared_work]
  refine congrArg some (Buffer.bytes_congr fun i hi => ?_)
  rw [Nat.zero_add]
  exact h.prepared_read (lt_of_lt_of_le hi (prepared_fbLen_le s))

theorem SameRound.fragNext {s s' t : State} (h : SameRound s s') (ht : fragNext s = .next t) :
    ∃ t', Machine.fragNext s' = .next t' ∧ RoundAlike t t' := by
  obtain ⟨hin, ⟨left, room, rfl⟩ | ⟨done, rfl⟩⟩ := fragNext_next.1 ht
  · refine ⟨prepared s', fragNext_next.2 ⟨?_, .inl ⟨?_, ?_, rfl⟩⟩, rfl, h.prepared_sinkCall,
      fun hidle => by simp at hidle, fun _ => h.prepared_work⟩
    · rwa [h.cmd, h.inSize]
    · rwa [h.cmd, h.off]
    · rwa [h.cmd, h.off, h.cap, h.fbSize]
  · refine ⟨_, fragNext_next.2 ⟨?_, .inr ⟨?_, rfl⟩⟩, rfl, rfl, fun _ => ⟨rfl, rfl, h.cnt⟩, fun hbusy => absurd rfl hbusy⟩
    · rwa [h.cmd, h.inSize]
    · rwa [h.cmd, h.off]

/-- What a round leaves as it was. -/
theorem fragNext_keeps {s t : State} (h : fragNext s = .next t) :
    t.cmd = s.cmd ∧ t.outBuf = s.outBuf ∧ t.sink = s.sink := by
  obtain ⟨-, ⟨-, -, rfl⟩ | ⟨-, rfl⟩⟩ := fragNext_next.1 h
  · exact ⟨rfl, rfl, rfl⟩
  · exact ⟨rfl, rfl, rfl⟩

/-! ### Launches -/

/-- Two machines agree on everything the command `i` may look at (R10, R37): the parameters, the bytes of IN in its
read set, and the buffers' lengths. -/
structure SameInputs (i : Instr) (s s' : State) : Prop where
  params : s'.params = s.params
  inSize : s'.inBuf.size = s.inBuf.size
  read : ∀ a, MayRead i s a → s'.inBuf.read a = s.inBuf.read a
  outSize : s'.outBuf.size = s.outBuf.size
  fbSize : s'.fb.size = s.fb.size

/-- Two launches of `i` came to the same: `t` from `s`, and `t'` from `s'`. -/
structure LaunchedAlike (i : Instr) (s s' t t' : State) : Prop where
  phase : t'.phase = t.phase
  cmd : t'.cmd = t.cmd
  sinkCall : t'.sinkCall = t.sinkCall
  out : ∀ a, t'.outBuf.read a = t.outBuf.read a
    ∨ t'.outBuf.read a = s'.outBuf.read a ∧ t.outBuf.read a = s.outBuf.read a
  result : t.phase = .idle → SameResult i t t'
  work : t.phase ≠ .idle → t'.work = t.work

/-- Two completions of the same command are alike when what they did to OUT and their results are. -/
theorem LaunchedAlike.of_delivered {i : Instr} {s s' u u' : State} {r r' : Res} (cmd : u'.cmd = u.cmd)
    (out : ∀ a, u'.outBuf.read a = u.outBuf.read a
      ∨ u'.outBuf.read a = s'.outBuf.read a ∧ u.outBuf.read a = s.outBuf.read a)
    (result : SameResult i (deliver r u) (deliver r' u')) : LaunchedAlike i s s' (deliver r u) (deliver r' u') where
  phase := rfl
  cmd := cmd
  sinkCall := rfl
  out := out
  result := fun _ => result
  work := fun busy => absurd rfl busy

/-- Two completions that leave OUT alone are alike when their results are. -/
theorem LaunchedAlike.of_completed {i : Instr} {s s' : State} {c : Cmd} {r r' : Res}
    (result : SameResult i (deliver r (accept c s)) (deliver r' (accept c s'))) :
    LaunchedAlike i s s' (deliver r (accept c s)) (deliver r' (accept c s')) :=
  .of_delivered rfl (fun _ => .inr ⟨rfl, rfl⟩) result

theorem sameResult_assemble {o : Operands} {st : BitVec 3} {v : Half} (u u' : State) :
    SameResult (.assemble o) (deliverValue st v u) (deliverValue st v u') := ⟨rfl, rfl, rfl⟩

section
variable {s s' t : State} {o : Operands}

theorem SameInputs.csum (h : SameInputs (.csum o) s s') (ht : exec (.csum o) s = .next t) :
    ∃ t', exec (.csum o) s' = .next t' ∧ LaunchedAlike (.csum o) s s' t t' := by
  obtain ⟨hin, rfl⟩ := execCsum_next.1 ht
  have hbytes : s'.inBuf.bytes 0 o.len.toNat = s.inBuf.bytes 0 o.len.toNat :=
    Buffer.bytes_congr fun a ha => h.read _ (by rwa [Nat.zero_add])
  refine ⟨_, execCsum_next.2 ⟨h.inSize ▸ hin, rfl⟩, .of_completed ⟨rfl, rfl, ?_⟩⟩
  show csum16 s'.params.accW _ = csum16 s.params.accW _
  rw [h.params, hbytes]

theorem SameInputs.build (h : SameInputs (.build o) s s') (ht : exec (.build o) s = .next t) :
    ∃ t', exec (.build o) s' = .next t' ∧ LaunchedAlike (.build o) s s' t t' := by
  obtain rfl := execBuild_next.1 ht
  refine ⟨_, execBuild_next.2 rfl, .of_completed ⟨rfl, rfl, ?_⟩⟩
  show unfragmentedHeader s'.params o o.len = unfragmentedHeader s.params o o.len
  rw [h.params]

/-- A successful ASSEMBLE writes the same packet; OUT beyond it stays as each machine had it. -/
theorem SameInputs.assembled_read (h : SameInputs (.assemble o) s s') (fits : 20 + o.len.toNat ≤ 65535)
    (room : 20 + o.len.toNat ≤ o.aux.toNat) (a : Nat) :
    (assembled o s').read a = (assembled o s).read a
      ∨ (assembled o s').read a = s'.outBuf.read a ∧ (assembled o s).read a = s.outBuf.read a := by
  rw [Machine.assembled_read, Machine.assembled_read, h.params]
  by_cases hheader : a < 20
  · simp only [if_pos hheader, true_or]
  · by_cases hpayload : a < 20 + o.len.toNat
    · have hmay : MayRead (.assemble o) s (a - 20) := ⟨fits, room, by omega⟩
      simp only [if_neg hheader, if_pos hpayload, h.read _ hmay, true_or]
    · simp only [if_neg hheader, if_neg hpayload, and_self, or_true]

theorem SameInputs.assemble (h : SameInputs (.assemble o) s s') (ht : exec (.assemble o) s = .next t) :
    ∃ t', exec (.assemble o) s' = .next t' ∧ LaunchedAlike (.assemble o) s s' t t' := by
  obtain ⟨hin, hout, ht⟩ := execAssemble_next.1 ht
  have hin' : o.len.toNat ≤ s'.inBuf.size := h.inSize ▸ hin
  have hout' : o.aux.toNat ≤ s'.outBuf.size := h.outSize ▸ hout
  simp only [execAssemble_next, hin', hout', true_and]
  split_ifs at ht ⊢ with hlong hsmall
  · subst ht
    exact ⟨_, rfl, .of_completed (sameResult_assemble _ _)⟩
  · subst ht
    exact ⟨_, rfl, .of_completed (sameResult_assemble _ _)⟩
  · subst ht
    exact ⟨_, rfl, .of_delivered rfl (h.assembled_read (Nat.le_of_not_lt hlong) (Nat.le_of_not_lt hsmall))
      (sameResult_assemble _ _)⟩

/-- PARSE's verdict rests on bytes of its read set: byte 0, and bytes 2 and 3 once byte 0 is right (R111, R117). -/
theorem SameInputs.structurallyValid (h : SameInputs (.parse o) s s') :
    StructurallyValid s'.inBuf o.len.toNat ↔ StructurallyValid s.inBuf o.len.toNat := by
  unfold StructurallyValid
  refine and_congr_right fun hlen => ?_
  rw [h.read 0 ⟨hlen, .inl rfl⟩]
  refine and_congr_right fun hversion => and_congr_right fun hmin => and_congr_right fun hmax => ?_
  have hmay : ∀ a, a < 20 → MayRead (.parse o) s a := fun a ha => ⟨hlen, .inr ⟨hversion, hmin, hmax, by omega⟩⟩
  rw [h.read 2 (hmay 2 (by omega)), h.read 3 (hmay 3 (by omega))]

theorem SameInputs.parse (h : SameInputs (.parse o) s s') (ht : exec (.parse o) s = .next t) :
    ∃ t', exec (.parse o) s' = .next t' ∧ LaunchedAlike (.parse o) s s' t t' := by
  obtain ⟨hin, ht⟩ := execParse_next_iff.1 ht
  have hin' : o.len.toNat ≤ s'.inBuf.size := h.inSize ▸ hin
  obtain ⟨invalid, rfl⟩ | ⟨valid, rfl⟩ := ht
  · refine ⟨_, execParse_next_iff.2 ⟨hin', .inl ⟨mt h.structurallyValid.1 invalid, rfl⟩⟩, .of_completed ?_⟩
    exact ⟨rfl, rfl, rfl, fun hvalid => absurd hvalid (by decide : (0 : BitVec 1) ≠ 1)⟩
  · refine ⟨_, execParse_next_iff.2 ⟨hin', .inr ⟨h.structurallyValid.2 valid, rfl⟩⟩, .of_completed ?_⟩
    obtain ⟨hlen, hversion, hmin, hmax, -⟩ := valid
    have hbytes : s'.inBuf.bytes 0 (4 * ((s.inBuf.read 0).toNat % 16))
        = s.inBuf.bytes 0 (4 * ((s.inBuf.read 0).toNat % 16)) :=
      Buffer.bytes_congr fun a ha => h.read _ ⟨hlen, .inr ⟨hversion, hmin, hmax, by rwa [Nat.zero_add]⟩⟩
    rw [h.read 0 ⟨hlen, .inl rfl⟩, hbytes]
    refine ⟨rfl, rfl, rfl, fun _ => ⟨rfl, ?_, rfl, rfl, rfl, rfl, rfl, rfl, rfl, rfl, rfl, rfl, rfl, rfl, rfl, rfl⟩⟩
    show csumOkFlag s'.params.accW _ = csumOkFlag s.params.accW _
    rw [h.params]

/-- FRAG sets every register its first round looks at. -/
theorem SameInputs.fragStarted (h : SameInputs (.frag o) s s') (mtu : s.params.mtuMin ≤ o.aux.toNat) :
    SameRound (fragStarted o s) (fragStarted o s') where
  params := h.params
  cmd := rfl
  cap := rfl
  off := rfl
  cnt := rfl
  inSize := h.inSize
  fbSize := h.fbSize
  slice := fun a _ hcap hlen => by
    have h20 : 20 ≤ o.aux.toNat := le_trans (by unfold Config.Params.mtuMin; omega) mtu
    have hcap' : a < (capacity o.aux).toNat := by simpa [Machine.fragStarted] using hcap
    rw [capacity_toNat _ h20] at hcap'
    exact h.read a ⟨mtu, lt_min hcap' hlen⟩

theorem SameInputs.frag (h : SameInputs (.frag o) s s') (ht : exec (.frag o) s = .next t) :
    ∃ t', exec (.frag o) s' = .next t' ∧ LaunchedAlike (.frag o) s s' t t' := by
  obtain ⟨hin, ht⟩ := execFrag_next.1 ht
  have hin' : o.len.toNat ≤ s'.inBuf.size := h.inSize ▸ hin
  simp only [execFrag_next, hin', true_and, h.params]
  split_ifs at ht ⊢ with hmtu
  · subst ht
    exact ⟨_, rfl, .of_completed ⟨rfl, rfl, rfl⟩⟩
  · obtain ⟨t', ht', alike⟩ := (h.fragStarted (Nat.le_of_not_lt hmtu)).fragNext ht
    obtain ⟨hcmd, hout, -⟩ := fragNext_keeps ht
    obtain ⟨hcmd', hout', -⟩ := fragNext_keeps ht'
    exact ⟨t', ht', alike.phase, hcmd'.trans hcmd.symm, alike.sinkCall,
      fun a => .inr ⟨by rw [hout']; rfl, by rw [hout]; rfl⟩, alike.result, alike.work⟩

end

theorem SameInputs.exec {i : Instr} {s s' t : State} (h : SameInputs i s s') (ht : exec i s = .next t) :
    ∃ t', Machine.exec i s' = .next t' ∧ LaunchedAlike i s s' t t' := by
  cases i with
  | csum o => exact h.csum ht
  | build o => exact h.build ht
  | assemble o => exact h.assemble ht
  | parse o => exact h.parse ht
  | frag o => exact h.frag ht

/-! ### The SINK's answer -/

/-- An answer, or its absence, does the same to two machines with the same registers and the same pending call. -/
theorem stepSinkWait_alike {s s' t : State} (phase : s.phase = .sinkWait) (phase' : s'.phase = .sinkWait)
    (sink : s'.sink = s.sink) (work : s'.work = s.work) (call : s'.sinkCall = s.sinkCall)
    (ht : stepSinkWait s = .next t) :
    ∃ t', stepSinkWait s' = .next t' ∧ t'.sink = t.sink ∧ RoundAlike t t' := by
  obtain ⟨hs, rfl⟩ | ⟨rc, rest, hs, rfl⟩ := stepSinkWait_next.1 ht
  · exact ⟨s', stepSinkWait_next.2 (.inl ⟨sink.trans hs, rfl⟩), sink, phase'.trans phase.symm, call,
      fun hidle => by simp [phase] at hidle, fun _ => work⟩
  · refine ⟨_, stepSinkWait_next.2 (.inr ⟨rc, rest, sink.trans hs, rfl⟩), ?_⟩
    obtain rfl | rfl := BitVec.eq_zero_or_eq_one rc
    · refine ⟨rfl, rfl, rfl, fun hidle => absurd hidle (by decide : Phase.run ≠ .idle), fun _ => ?_⟩
      show { s'.work with off := s'.work.off + s'.work.n } = { s.work with off := s.work.off + s.work.n }
      rw [work]
    · exact ⟨rfl, rfl, rfl, fun _ => ⟨rfl, rfl, congrArg Work.cnt work⟩, fun hbusy => absurd rfl hbusy⟩

/-- Settles O14: launches command by command; a later round and an answer by the registers of the run. -/
theorem noStateFromEarlierCommands : Obligations.NoStateFromEarlierCommands := by
  constructor
  · intro i s s' t params inSize read outSize fbSize ht
    have h : SameInputs i s s' := ⟨params, inSize, read, outSize, fbSize⟩
    obtain ⟨t', ht', alike⟩ := h.exec ht
    exact ⟨t', ht', alike.phase, alike.cmd, alike.sinkCall, alike.out, alike.result, alike.work⟩
  · intro s s' t busy line line' phaseEq params cmd inSize slice sink work fbSize call ht
    obtain ⟨t', ht', hsink, alike⟩ : ∃ t', step s' = .next t' ∧ t'.sink = t.sink ∧ RoundAlike t t' := by
      cases phase : s.phase with
      | idle => exact absurd phase busy
      | run =>
        have h : SameRound s s' := ⟨params, cmd, congrArg Work.cap work, congrArg Work.off work, congrArg Work.cnt work,
          inSize, fbSize, fun a => slice a phase⟩
        rw [step_of_run line phase] at ht
        rw [step_of_run line' (phaseEq.trans phase)]
        obtain ⟨t', ht', alike⟩ := h.fragNext ht
        obtain ⟨-, -, hsink⟩ := fragNext_keeps ht
        obtain ⟨-, -, hsink'⟩ := fragNext_keeps ht'
        exact ⟨t', ht', by rw [hsink', sink, hsink], alike⟩
      | sinkWait =>
        rw [step_of_sinkWait line phase] at ht
        rw [step_of_sinkWait line' (phaseEq.trans phase)]
        exact stepSinkWait_alike phase (phaseEq.trans phase) sink work call ht
    exact ⟨t', ht', alike.phase, hsink, alike.sinkCall, fun idle => (alike.result idle).2, alike.work⟩

end Sys2Proof.Machine
end

section
/-! PROOFS. What a command reads and writes, and when it is refused (`20_memory.md`). -/

namespace Sys2Proof.Machine

/-! ### Launches and rounds that go on (R36) -/

theorem needIn_of_lt {s : State} (k : Answer) (h : s.inBuf.size < s.cmd.len.toNat) :
    needIn s k = .refused .inTooShort := if_pos h

theorem needOut_of_lt {s : State} (k : Answer) (h : s.outBuf.size < s.cmd.aux.toNat) :
    needOut s k = .refused .outTooShort := if_pos h

theorem fragRunning_fragStarted {o : Operands} {s : State} (input : o.len.toNat ≤ s.inBuf.size)
    (mtu : s.params.mtuMin ≤ o.aux.toNat) : FragRunning (fragStarted o s) :=
  { op := rfl, mtu := mtu, cap := rfl, busy := rfl, input := input }

/-- A round of a good run goes on: its slice lies in IN, and no fragment is longer than R30's FB. -/
theorem FragRunning.exists_fragNext {s : State} (h : FragRunning s) (fbSize : 65532 ≤ s.fb.size) :
    ∃ t, fragNext s = .next t := by
  rcases Nat.lt_or_ge s.work.off.toNat s.cmd.len.toNat with left | done
  · have fits : sliceLen s.work.cap.toNat s.work.off.toNat s.cmd.len.toNat ≤ 65512 :=
      le_trans (Nat.min_le_left _ _) h.cap_bounds.2
    exact ⟨_, fragNext_next.2 ⟨h.input, .inl ⟨left, le_trans (Nat.add_le_add_left fits 20) fbSize, rfl⟩⟩⟩
  · exact ⟨_, fragNext_next.2 ⟨h.input, .inr ⟨done, rfl⟩⟩⟩

theorem Launchable.exists_exec {i : Instr} {s : State} (h : Launchable i s) (fbSize : 65532 ≤ s.fb.size) :
    ∃ t, exec i s = .next t := by
  cases i with
  | csum o => exact ⟨_, execCsum_next.2 ⟨h, rfl⟩⟩
  | build o => exact ⟨_, execBuild_next.2 rfl⟩
  | assemble o =>
    obtain ⟨input, output⟩ := h
    simp only [execAssemble_next, input, output, true_and]
    split_ifs <;> exact ⟨_, rfl⟩
  | parse o =>
    by_cases valid : StructurallyValid s.inBuf o.len.toNat
    · exact ⟨_, execParse_next_iff.2 ⟨h, .inr ⟨valid, rfl⟩⟩⟩
    · exact ⟨_, execParse_next_iff.2 ⟨h, .inl ⟨valid, rfl⟩⟩⟩
  | frag o =>
    have input : o.len.toNat ≤ s.inBuf.size := h
    simp only [execFrag_next, input, true_and]
    split_ifs with mtu
    · exact ⟨_, rfl⟩
    · exact (fragRunning_fragStarted input (Nat.le_of_not_lt mtu)).exists_fragNext fbSize

theorem exec_refused_of_not_launchable {i : Instr} {s : State} (h : ¬ Launchable i s) :
    ∃ r, exec i s = .refused r := by
  cases i with
  | csum o | parse o | frag o => exact ⟨_, needIn_of_lt _ (Nat.lt_of_not_le h)⟩
  | build o => exact absurd trivial h
  | assemble o =>
    by_cases input : o.len.toNat ≤ s.inBuf.size
    · have output : s.outBuf.size < o.aux.toNat := Nat.lt_of_not_le fun output => h ⟨input, output⟩
      exact ⟨_, (needIn_of_le _ input).trans (needOut_of_lt _ output)⟩
    · exact ⟨_, needIn_of_lt _ (Nat.lt_of_not_le input)⟩

theorem run_or_sinkWait_of_busy {p : Phase} (busy : p ≠ .idle) : p = .run ∨ p = .sinkWait := by
  cases p with
  | idle => exact absurd rfl busy
  | run => exact .inl rfl
  | sinkWait => exact .inr rfl

/-- Whatever a running block does next, it goes on: a reset, a round of FRAG, an answer, or waiting for one. -/
theorem Inv.exists_step_of_busy {s : State} (inv : Inv s) (busy : s.phase ≠ .idle) : ∃ t, step s = .next t := by
  cases line : s.resetIn with
  | true => exact ⟨_, step_next.2 (.inl ⟨line, rfl⟩)⟩
  | false =>
    obtain phase | phase := run_or_sinkWait_of_busy busy
    · rw [step_of_run line phase]
      exact (inv.run phase).exists_fragNext inv.fbSize
    · rw [step_of_sinkWait line phase]
      cases sink : s.sink with
      | nil => exact ⟨_, stepSinkWait_next.2 (.inl ⟨sink, rfl⟩)⟩
      | cons rc rest => exact ⟨_, stepSinkWait_next.2 (.inr ⟨rc, rest, sink, rfl⟩)⟩

/-- Settles O32: the launch preconditions are all a launch can fail on, and the invariant holds what a round needs. -/
theorem launchRefusedExactlyWhenBuffersAreShort : Obligations.LaunchRefusedExactlyWhenBuffersAreShort :=
  ⟨fun _ _ fbSize => ⟨fun h => h.exists_exec fbSize, exec_refused_of_not_launchable⟩,
    fun _ => Inv.exists_step_of_busy⟩

/-! ### No access outside a buffer (R36, R39) -/

theorem exec_ne_fault {i : Instr} {s : State} (fbSize : 65532 ≤ s.fb.size) (f : Fault) : exec i s ≠ .fault f := by
  by_cases launchable : Launchable i s
  · obtain ⟨t, h⟩ := launchable.exists_exec fbSize
    simp [h]
  · obtain ⟨r, h⟩ := exec_refused_of_not_launchable launchable
    simp [h]

theorem stepIdle_ne_fault {s : State} (fbSize : 65532 ≤ s.fb.size) (f : Fault) : stepIdle s ≠ .fault f := by
  unfold stepIdle present
  split
  · nofun
  · nofun
  · nofun
  · split
    · refine exec_ne_fault ?_ f
      exact fbSize
    · nofun

/-- Settles O48: an idle step can fail only by refusing a launch, and a running block always goes on. -/
theorem stepNeverLeavesTheBuffers : Obligations.StepNeverLeavesTheBuffers := by
  refine fun s inv => ⟨fun f fault => ?_, inv.exists_step_of_busy⟩
  by_cases idle : s.phase = .idle ∧ s.resetIn = false
  · obtain ⟨phase, line⟩ := idle
    exact stepIdle_ne_fault inv.fbSize f (step_of_idle line phase ▸ fault)
  · obtain ⟨t, h⟩ : ∃ t, step s = .next t := by
      by_cases phase : s.phase = .idle
      · exact ⟨_, step_next.2 (.inl ⟨by simpa [phase] using idle, rfl⟩)⟩
      · exact inv.exists_step_of_busy phase
    simp [h] at fault

/-! ### Read sets (R37, R39): the same step with another input buffer -/

theorem sameInputs_inBuf {i : Instr} {s : State} {b : Buffer} (size : b.size = s.inBuf.size)
    (read : ∀ a, MayRead i s a → b.read a = s.inBuf.read a) : SameInputs i s { s with inBuf := b } :=
  ⟨rfl, size, read, rfl, rfl⟩

section
variable {s t : State} {b : Buffer} {o : Operands}

theorem SameRound.prepared_inBuf (h : SameRound s { s with inBuf := b }) :
    prepared { s with inBuf := b } = { prepared s with inBuf := b } := by
  have slice : b.bytes s.work.off.toNat (sliceLen s.work.cap.toNat s.work.off.toNat s.cmd.len.toNat)
      = s.inBuf.bytes s.work.off.toNat (sliceLen s.work.cap.toNat s.work.off.toNat s.cmd.len.toNat) :=
    Buffer.bytes_congr fun i hi => by
      unfold sliceLen at hi
      exact h.slice _ (by omega) (by omega) (by omega)
  simp only [prepared, callSink, slice]

theorem SameRound.fragNext_inBuf (h : SameRound s { s with inBuf := b }) (ht : Machine.fragNext s = .next t) :
    Machine.fragNext { s with inBuf := b } = .next { t with inBuf := b } := by
  obtain ⟨input, ⟨left, room, rfl⟩ | ⟨done, rfl⟩⟩ := fragNext_next.1 ht
  · exact fragNext_next.2 ⟨h.inSize ▸ input, .inl ⟨left, room, h.prepared_inBuf.symm⟩⟩
  · exact fragNext_next.2 ⟨h.inSize ▸ input, .inr ⟨done, rfl⟩⟩

theorem SameInputs.csum_inBuf (h : SameInputs (.csum o) s { s with inBuf := b })
    (ht : Machine.exec (.csum o) s = .next t) :
    Machine.exec (.csum o) { s with inBuf := b } = .next { t with inBuf := b } := by
  obtain ⟨input, rfl⟩ := execCsum_next.1 ht
  have payload : b.bytes 0 o.len.toNat = s.inBuf.bytes 0 o.len.toNat :=
    Buffer.bytes_congr fun a ha => h.read _ (by rwa [Nat.zero_add])
  refine execCsum_next.2 ⟨h.inSize ▸ input, ?_⟩
  rw [payload]
  rfl

theorem SameInputs.assemble_inBuf (h : SameInputs (.assemble o) s { s with inBuf := b })
    (ht : Machine.exec (.assemble o) s = .next t) :
    Machine.exec (.assemble o) { s with inBuf := b } = .next { t with inBuf := b } := by
  obtain ⟨input, output, ht⟩ := execAssemble_next.1 ht
  refine execAssemble_next.2 ⟨h.inSize ▸ input, output, ?_⟩
  split_ifs at ht ⊢ with long small
  · subst ht; rfl
  · subst ht; rfl
  · have payload : b.bytes 0 o.len.toNat = s.inBuf.bytes 0 o.len.toNat :=
      Buffer.bytes_congr fun a ha =>
        h.read _ ⟨Nat.le_of_not_lt long, Nat.le_of_not_lt small, by rwa [Nat.zero_add]⟩
    subst ht
    simp only [assembled, payload]
    rfl

theorem SameInputs.parse_inBuf (h : SameInputs (.parse o) s { s with inBuf := b })
    (ht : Machine.exec (.parse o) s = .next t) :
    Machine.exec (.parse o) { s with inBuf := b } = .next { t with inBuf := b } := by
  obtain ⟨input, ⟨invalid, rfl⟩ | ⟨valid, rfl⟩⟩ := execParse_next_iff.1 ht
  · exact execParse_next_iff.2 ⟨h.inSize ▸ input, .inl ⟨mt h.structurallyValid.1 invalid, rfl⟩⟩
  · refine execParse_next_iff.2 ⟨h.inSize ▸ input, .inr ⟨h.structurallyValid.2 valid, ?_⟩⟩
    obtain ⟨hlen, hversion, hmin, hmax, -⟩ := valid
    have byte0 : b.read 0 = s.inBuf.read 0 := h.read 0 ⟨hlen, .inl rfl⟩
    have header : b.bytes 0 (4 * ((s.inBuf.read 0).toNat % 16))
        = s.inBuf.bytes 0 (4 * ((s.inBuf.read 0).toNat % 16)) :=
      Buffer.bytes_congr fun a ha => h.read _ ⟨hlen, .inr ⟨hversion, hmin, hmax, by rwa [Nat.zero_add]⟩⟩
    simp only [byte0, header]
    rfl

theorem SameInputs.frag_inBuf (h : SameInputs (.frag o) s { s with inBuf := b })
    (ht : Machine.exec (.frag o) s = .next t) :
    Machine.exec (.frag o) { s with inBuf := b } = .next { t with inBuf := b } := by
  obtain ⟨input, ht⟩ := execFrag_next.1 ht
  refine execFrag_next.2 ⟨h.inSize ▸ input, ?_⟩
  split_ifs at ht ⊢ with mtu
  · subst ht; rfl
  · exact (h.fragStarted (Nat.le_of_not_lt mtu)).fragNext_inBuf ht

end

theorem SameInputs.exec_inBuf {i : Instr} {s t : State} {b : Buffer} (h : SameInputs i s { s with inBuf := b })
    (ht : Machine.exec i s = .next t) : Machine.exec i { s with inBuf := b } = .next { t with inBuf := b } := by
  cases i with
  | csum o => exact h.csum_inBuf ht
  | build o => rw [execBuild_next.1 ht]; rfl
  | assemble o => exact h.assemble_inBuf ht
  | parse o => exact h.parse_inBuf ht
  | frag o => exact h.frag_inBuf ht

/-- An answer reads nothing of IN (R37). -/
theorem stepSinkWait_inBuf {s t : State} (b : Buffer) (h : stepSinkWait s = .next t) :
    stepSinkWait { s with inBuf := b } = .next { t with inBuf := b } := by
  obtain ⟨sink, rfl⟩ | ⟨rc, rest, sink, rfl⟩ := stepSinkWait_next.1 h
  · exact stepSinkWait_next.2 (.inl ⟨sink, rfl⟩)
  · refine stepSinkWait_next.2 (.inr ⟨rc, rest, sink, ?_⟩)
    obtain rfl | rfl := BitVec.eq_zero_or_eq_one rc
    · rfl
    · rfl

theorem InSinkCall.n_pos {s : State} (h : InSinkCall s) : 0 < s.work.n.toNat := by
  have hcap := h.cap_bounds.1
  have hleft := h.left
  rw [h.slice, sliceLen]
  omega

/-- `off` does not wrap: the slice lies in a payload of 16-bit length (R137). -/
theorem InSinkCall.off_wentOn {s : State} (h : InSinkCall s) :
    (wentOn s).work.off.toNat = s.work.off.toNat + s.work.n.toNat := by
  have hslice : s.work.n.toNat = min s.work.cap.toNat (s.cmd.len.toNat - s.work.off.toNat) := h.slice
  have hleft := h.left
  have hlen := s.cmd.len.isLt
  show (s.work.off + s.work.n).toNat = _
  rw [BitVec.toNat_add, Nat.mod_eq_of_lt (by omega)]

/-- A call that goes on was answered 0, and `off` moves up past its slice (R39). -/
theorem Inv.off_after_call {s t : State} (inv : Inv s) (phase : s.phase = .sinkWait) (line : s.resetIn = false)
    (h : step s = .next t) (goesOn : t.phase = .run) :
    t.work.off.toNat = s.work.off.toNat + s.work.n.toNat ∧ s.work.off.toNat < t.work.off.toNat := by
  have call := inv.call phase
  rw [step_of_sinkWait line phase] at h
  obtain ⟨-, rfl⟩ | ⟨rc, rest, -, rfl⟩ := stepSinkWait_next.1 h
  · simp [phase] at goesOn
  · obtain rfl | rfl := BitVec.eq_zero_or_eq_one rc
    · have moved := call.off_wentOn
      exact ⟨moved, moved ▸ Nat.lt_add_of_pos_right call.n_pos⟩
    · cases goesOn

/-- Settles O33: launches command by command, then a later round, an answer, and the order of the slices. -/
theorem commandsReadOnlyTheirReadSet : Obligations.CommandsReadOnlyTheirReadSet := by
  refine ⟨fun i s t b size read => (sameInputs_inBuf size read).exec_inBuf, ?_,
    fun s t inv phase line => inv.off_after_call phase line⟩
  intro s t b busy line size slice h
  obtain phase | phase := run_or_sinkWait_of_busy busy
  · have same : SameRound s { s with inBuf := b } :=
      ⟨rfl, rfl, rfl, rfl, rfl, size, rfl, fun a => slice a phase⟩
    rw [step_of_run line phase] at h
    exact (step_of_run (s := { s with inBuf := b }) line phase).trans (same.fragNext_inBuf h)
  · rw [step_of_sinkWait line phase] at h
    exact (step_of_sinkWait (s := { s with inBuf := b }) line phase).trans (stepSinkWait_inBuf b h)

/-! ### Write sets (R38) -/

theorem SameBytes.of_eq {b b' : Buffer} (h : b' = b) : SameBytes b b' := by
  subst h
  exact ⟨rfl, fun _ => rfl⟩

theorem SameBytes.refl (b : Buffer) : SameBytes b b := .of_eq rfl

/-- A round writes no byte of FB from `fb_len` on. -/
theorem FragRunning.prepared_read_of_fbLen_le {s : State} (h : FragRunning s) {a : Nat}
    (ha : (prepared s).work.fbLen.toNat ≤ a) : (prepared s).fb.read a = s.fb.read a := by
  rw [prepared_fbLen s h.cap_bounds.2] at ha
  rw [prepared_read, if_neg (by omega), if_neg (by omega)]

theorem FirstStep.frame {s t : State} {i : Instr} (h : FirstStep s i t) :
    SameBytes s.inBuf t.inBuf ∧ KeepsOutside s t ∧ t.cmd = { i.operands with op := i.op } := by
  cases h with
  | completed | packet | called => exact ⟨.refl _, ⟨rfl, rfl, rfl, rfl⟩, rfl⟩

theorem FirstStep.sameBytes_outBuf {s t : State} {i : Instr} (h : FirstStep s i t) (hi : ∀ o, i ≠ .assemble o) :
    SameBytes s.outBuf t.outBuf :=
  .of_eq (by_contra fun ne => (h.assemble_of_outBuf_ne ne).elim hi)

theorem FirstStep.sameBytes_fb {s t : State} {i : Instr} (h : FirstStep s i t) (hi : ∀ o, i ≠ .frag o) :
    SameBytes s.fb t.fb :=
  .of_eq (by_contra fun ne => (h.frag_of_fb_ne ne).elim hi)

/-- ASSEMBLE writes the packet, or on failure nothing (R96, R97). -/
theorem execAssemble_outBuf {o : Operands} {s t : State} (h : exec (.assemble o) s = .next t) :
    t.res.status = stOk ∧ t.outBuf = assembled o s ∨ t.res.status ≠ stOk ∧ t.outBuf = s.outBuf := by
  obtain ⟨-, -, h⟩ := execAssemble_next.1 h
  split_ifs at h
  · subst h; exact .inr ⟨(by decide : stLengthRange ≠ stOk), rfl⟩
  · subst h; exact .inr ⟨(by decide : stBufferTooSmall ≠ stOk), rfl⟩
  · subst h; exact .inl ⟨rfl, rfl⟩

theorem FirstStep.frag_fb {o : Operands} {s t : State} (h : FirstStep s (.frag o) t) :
    t.fb.size = s.fb.size ∧ (t.phase ≠ .sinkWait → SameBytes s.fb t.fb)
      ∧ (t.phase = .sinkWait → ∀ a, t.work.fbLen.toNat ≤ a → t.fb.read a = s.fb.read a) := by
  cases h with
  | completed => exact ⟨rfl, fun _ => .refl _, fun _ _ _ => rfl⟩
  | called _ input mtu =>
    exact ⟨rfl, fun noCall => absurd rfl noCall,
      fun _ _ => (fragRunning_fragStarted input mtu).prepared_read_of_fbLen_le⟩

/-- Settles O34: the frame all commands share, then each command's own buffer, then the steps of a running FRAG. -/
theorem commandsWriteOnlyTheirWriteSet : Obligations.CommandsWriteOnlyTheirWriteSet := by
  constructor
  · intro i s t h
    have first := exec_firstStep h
    obtain ⟨input, outside, cmd⟩ := first.frame
    refine ⟨input, outside, cmd, ?_⟩
    cases i with
    | csum | build | parse => exact ⟨first.sameBytes_outBuf nofun, first.sameBytes_fb nofun⟩
    | assemble o =>
      refine ⟨first.sameBytes_fb nofun, ?_⟩
      obtain ⟨ok, out⟩ | ⟨failed, out⟩ := execAssemble_outBuf h
      · exact ⟨by rw [out]; rfl, fun _ a => by rw [out, assembled_read], fun failed => absurd ok failed⟩
      · exact ⟨by rw [out], fun ok => absurd ok failed, fun _ => .of_eq out⟩
    | frag o => exact ⟨first.sameBytes_outBuf nofun, first.frag_fb⟩
  · intro s t inv busy line h
    cases step_stepCase h with
    | reset line' => simp [line] at line'
    | noRequest _ phase | fillIn _ phase | provideOut _ phase | launch _ phase | illegal _ phase =>
      exact absurd phase busy
    | nextCall _ phase =>
      refine ⟨.refl _, .refl _, rfl, fun noCall => ?_, fun _ _ _ => (inv.run phase).prepared_read_of_fbLen_le⟩
      simp [phase] at noCall
    | finished | noAnswer | answeredZero | answeredOne =>
      exact ⟨.refl _, .refl _, rfl, fun _ => .refl _, fun _ _ _ _ => rfl⟩

end Sys2Proof.Machine
end

section
/-! PROOFS. The command descriptor (`30_encoding.md`, part 2): the decoder said once, as an equivalence, and the round
trip with the encoder. -/

namespace Sys2Proof

/-! ### The decoder (R60 to R62) -/

/-- What the decoder answers with a command, and which (R61): the reserved fields are zero, and the command is the one
with the descriptor's code and operand fields. -/
theorem decode_eq_ok_iff {d : Desc} {i : Instr} :
    decode d = .ok i ↔
      (d.rsv0 = 0 ∧ d.rsv1 = 0 ∧ d.rsv2 = 0) ∧ i.op = d.op ∧ i.operands = d.operands := by
  constructor
  · intro h
    unfold decode at h
    split_ifs at h with rsv0 rsv1 rsv2 op op op op op <;> cases h <;>
      exact ⟨⟨not_not.1 rsv0, not_not.1 rsv1, not_not.1 rsv2⟩, op.symm, rfl⟩
  · rintro ⟨⟨rsv0, rsv1, rsv2⟩, op, operands⟩
    cases i <;> simp [decode, rsv0, rsv1, rsv2, ← op, ← operands, Instr.op, Instr.operands]

theorem Instr.op_assigned (i : Instr) : 1 ≤ i.op.toNat ∧ i.op.toNat ≤ 5 := by
  cases i <;> simp [Instr.op]

/-- Every assigned code is a command's, with any operand fields (R62). -/
theorem exists_instr_of_op {op : BitVec 3} (assigned : 1 ≤ op.toNat ∧ op.toNat ≤ 5) (o : Operands) :
    ∃ i : Instr, i.op = op ∧ i.operands = o := by
  have hop : op = 1 ∨ op = 2 ∨ op = 3 ∨ op = 4 ∨ op = 5 := by revert op; decide
  obtain rfl | rfl | rfl | rfl | rfl := hop
  · exact ⟨.csum o, rfl, rfl⟩
  · exact ⟨.build o, rfl, rfl⟩
  · exact ⟨.assemble o, rfl, rfl⟩
  · exact ⟨.parse o, rfl, rfl⟩
  · exact ⟨.frag o, rfl, rfl⟩

theorem Desc.WellFormed.exists_decode {d : Desc} (h : d.WellFormed) :
    ∃ i, decode d = .ok i ∧ i.op = d.op ∧ i.operands = d.operands := by
  obtain ⟨rsv0, rsv1, rsv2, assigned⟩ := h
  obtain ⟨i, op, operands⟩ := exists_instr_of_op assigned d.operands
  exact ⟨i, decode_eq_ok_iff.2 ⟨⟨rsv0, rsv1, rsv2⟩, op, operands⟩, op, operands⟩

theorem wellFormed_of_decode {d : Desc} {i : Instr} (h : decode d = .ok i) : d.WellFormed := by
  obtain ⟨⟨rsv0, rsv1, rsv2⟩, op, -⟩ := decode_eq_ok_iff.1 h
  have assigned := i.op_assigned
  rw [op] at assigned
  exact ⟨rsv0, rsv1, rsv2, assigned⟩

theorem exists_reject_of_not_wellFormed {d : Desc} (h : ¬ d.WellFormed) : ∃ r, decode d = .error r := by
  cases hd : decode d with
  | ok _ => exact absurd (wellFormed_of_decode hd) h
  | error r => exact ⟨r, rfl⟩

/-- Settles O1: packing puts zeros in the reserved fields and each operand where the decoder looks for it. -/
theorem decodeUndoesEncode : Obligations.DecodeUndoesEncode := fun _ =>
  decode_eq_ok_iff.2
    ⟨⟨pack_rsv0 _ _, pack_rsv1 _ _, pack_rsv2 _ _⟩, (pack_op _ _).symm, (pack_operands _ _).symm⟩

/-- Settles O2: the fields of an accepted descriptor, packed, are the descriptor, its reserved fields being zero. -/
theorem encodeUndoesDecode : Obligations.EncodeUndoesDecode := by
  intro d i h
  obtain ⟨⟨rsv0, rsv1, rsv2⟩, op, operands⟩ := decode_eq_ok_iff.1 h
  rw [encode, op, operands]
  exact pack_of_reserved_zero d rsv0 rsv1 rsv2

/-- Settles O3: one lemma for the legal descriptors and one for the illegal. -/
theorem decoderAcceptsExactlyLegalDescriptors : Obligations.DecoderAcceptsExactlyLegalDescriptors :=
  fun _ => ⟨Desc.WellFormed.exists_decode, exists_reject_of_not_wellFormed⟩

/-- Settles O4, by running the decoder on the seven words. -/
theorem writtenDescriptorsDecode : Obligations.WrittenDescriptorsDecode := by
  unfold Obligations.WrittenDescriptorsDecode
  decide

/-- Each cause of R63 makes a descriptor illegal. -/
theorem not_wellFormed_of_cause {d : Desc}
    (cause : d.w0.extractLsb' 29 3 = 0 ∨ d.w0.extractLsb' 29 3 = 6 ∨ d.w0.extractLsb' 29 3 = 7
      ∨ d.w0.extractLsb' 24 4 ≠ 0 ∨ d.w0.extractLsb' 0 8 ≠ 0 ∨ d.w2.extractLsb' 0 16 ≠ 0) : ¬ d.WellFormed := by
  rintro ⟨rsv0, rsv1, rsv2, assigned⟩
  obtain op | op | op | reserved | reserved | reserved := cause
  · simp [Desc.opAssigned, op] at assigned
  · simp [Desc.opAssigned, op] at assigned
  · simp [Desc.opAssigned, op] at assigned
  · exact reserved rsv0
  · exact reserved rsv1
  · exact reserved rsv2

end Sys2Proof
end

section
/-! PROOFS. What the descriptor of a command, legal or not, comes to (`30_encoding.md` part 2): illegal descriptors,
fields that are not used, completion codes. -/

namespace Sys2Proof.Machine

/-! ### Illegal descriptors (R63, R152) -/

/-- An idle block to which an illegal descriptor is presented answers with `illegalCommand`. -/
theorem step_of_illegal {s : State} {d : Desc} {r : Reject} {rest : List ReqStep} (phase : s.phase = .idle)
    (line : s.resetIn = false) (req : s.req = .present d :: rest) (reject : decode d = .error r) :
    step s = .next (illegalCommand { d.operands with op := d.op } { s with req := rest }) := by
  rw [step_of_idle line phase]
  exact stepIdle_next.2 (.inr (.inr (.inr (.inr ⟨d, rest, r, req, reject, rfl⟩))))

/-- Settles O5: the answer of `step_of_illegal` is the same whatever the buffers are. -/
theorem illegalDescriptorCompletesAtOnce : Obligations.IllegalDescriptorCompletesAtOnce := by
  intro s d rest phase line req cause
  obtain ⟨r, reject⟩ := exists_reject_of_not_wellFormed (not_wellFormed_of_cause cause)
  exact ⟨_, step_of_illegal phase line req reject, ⟨rfl, rfl, rfl⟩, rfl, rfl, rfl, rfl, line,
    fun bi bo bf => step_of_illegal (s := { s with inBuf := bi, outBuf := bo, fb := bf }) phase line req reject⟩

/-! ### Fields a command does not use (R64) -/

section
variable {s t : State} {o o' : Operands}

/-- CSUM uses `len` only. -/
theorem execCsum_of_len_eq (len : o'.len = o.len) (h : exec (.csum o) s = .next t) :
    exec (.csum o') s = .next { t with cmd := { o' with op := 1 } } := by
  obtain ⟨input, rfl⟩ := execCsum_next.1 h
  refine execCsum_next.2 ⟨len ▸ input, ?_⟩
  rw [len]
  rfl

/-- PARSE uses `len` only. -/
theorem execParse_of_len_eq (len : o'.len = o.len) (h : exec (.parse o) s = .next t) :
    exec (.parse o') s = .next { t with cmd := { o' with op := 4 } } := by
  obtain ⟨input, ⟨invalid, rfl⟩ | ⟨valid, rfl⟩⟩ := execParse_next_iff.1 h
  · exact execParse_next_iff.2 ⟨len ▸ input, .inl ⟨len ▸ invalid, rfl⟩⟩
  · exact execParse_next_iff.2 ⟨len ▸ input, .inr ⟨len ▸ valid, rfl⟩⟩

/-- BUILD does not use `aux`. -/
theorem execBuild_aux (a : Half) (h : exec (.build o) s = .next t) :
    exec (.build { o with aux := a }) s = .next { t with cmd := { t.cmd with aux := a } } := by
  obtain rfl := execBuild_next.1 h
  exact execBuild_next.2 rfl

/-- `s` with `d` in the operand register `CMD.df`. -/
def withDf (d : BitVec 1) (s : State) : State := { s with cmd := { s.cmd with df := d } }

/-- A round of FRAG does not use `df`. -/
theorem fragNext_withDf (d : BitVec 1) (h : fragNext s = .next t) : fragNext (withDf d s) = .next (withDf d t) := by
  obtain ⟨input, ⟨left, room, rfl⟩ | ⟨allSent, rfl⟩⟩ := fragNext_next.1 h
  · exact fragNext_next.2 ⟨input, .inl ⟨left, room, rfl⟩⟩
  · exact fragNext_next.2 ⟨input, .inr ⟨allSent, rfl⟩⟩

/-- Nor does its launch. -/
theorem execFrag_withDf (d : BitVec 1) (h : exec (.frag o) s = .next t) :
    exec (.frag { o with df := d }) s = .next (withDf d t) := by
  obtain ⟨input, h⟩ := execFrag_next.1 h
  refine execFrag_next.2 ⟨input, ?_⟩
  split_ifs at h ⊢ with mtu
  · subst h; rfl
  · exact fragNext_withDf d h

/-- Nor does the SINK's answer. -/
theorem stepSinkWait_withDf (d : BitVec 1) (h : stepSinkWait s = .next t) :
    stepSinkWait (withDf d s) = .next (withDf d t) := by
  obtain ⟨sink, rfl⟩ | ⟨rc, rest, sink, rfl⟩ := stepSinkWait_next.1 h
  · exact stepSinkWait_next.2 (.inl ⟨sink, rfl⟩)
  · refine stepSinkWait_next.2 (.inr ⟨rc, rest, sink, ?_⟩)
    obtain rfl | rfl := BitVec.eq_zero_or_eq_one rc
    · rfl
    · rfl

theorem step_withDf_of_busy (d : BitVec 1) (busy : s.phase ≠ .idle) (line : s.resetIn = false)
    (h : step s = .next t) : step (withDf d s) = .next (withDf d t) := by
  obtain phase | phase := run_or_sinkWait_of_busy busy
  · rw [step_of_run line phase] at h
    exact (step_of_run (s := withDf d s) line phase).trans (fragNext_withDf d h)
  · rw [step_of_sinkWait line phase] at h
    exact (step_of_sinkWait (s := withDf d s) line phase).trans (stepSinkWait_withDf d h)

end

/-- Every fragment's header has `df = 0`: its flags word is `mf` and the offset, below `2 ^ 14` (R135). -/
theorem fragHeader_df (p : Config.Params) (c : Cmd) (off n : Nat) :
    ((fragHeader p c off n).toList.getD 6 0).toNat / 64 % 2 = 0 := by
  have byte6 : (fragHeader p c off n).toList.getD 6 0
      = byte16 (flagsWord 0 (sliceMf off n c.len.toNat) (BitVec.ofNat 13 (off / 8))) 0 := rfl
  have mf := (sliceMf off n c.len.toNat).isLt
  have fragOff := (BitVec.ofNat 13 (off / 8)).isLt
  have df : (0 : BitVec 1).toNat = 0 := rfl
  rw [byte6, byte16_zero_toNat, flagsWord_toNat, df]
  omega

theorem prepared_df (s : State) : ((prepared s).fb.read 6).toNat / 64 % 2 = 0 := by
  rw [prepared_read, if_pos (by decide)]
  exact fragHeader_df _ _ _ _

theorem FirstStep.df_of_call {s t : State} {i : Instr} (h : FirstStep s i t) (call : t.phase = .sinkWait) :
    (t.fb.read 6).toNat / 64 % 2 = 0 := by
  cases h with
  | completed | packet => simp at call
  | called => exact prepared_df _

theorem fragNext_df_of_call {s t : State} (h : fragNext s = .next t) (call : t.phase = .sinkWait) :
    (t.fb.read 6).toNat / 64 % 2 = 0 := by
  obtain ⟨-, ⟨-, -, rfl⟩ | ⟨-, rfl⟩⟩ := fragNext_next.1 h
  · exact prepared_df s
  · simp at call

/-- Settles O6: one lemma per command for the fields it ignores, then the later steps of FRAG and the bit `df`. -/
theorem ignoredFieldsDoNotMatter : Obligations.IgnoredFieldsDoNotMatter :=
  ⟨fun _ _ _ _ len => ⟨execCsum_of_len_eq len, execParse_of_len_eq len⟩, fun _ _ _ => execBuild_aux,
    fun _ _ _ => execFrag_withDf, fun _ _ => step_withDf_of_busy, fun _ _ _ h => (exec_firstStep h).df_of_call,
    fun _ _ phase line h => fragNext_df_of_call (step_of_run line phase ▸ h)⟩

/-! ### Completion codes (R70, R71, R150) -/

theorem completed_deliverValue (st : BitVec 3) (v : Half) (s : State) : Completed (deliverValue st v s) st :=
  ⟨rfl, rfl, rfl⟩

/-- Settles O35: each command's outcomes, as its inversion lemma lists them. -/
theorem statusCodesOfEachCommand : Obligations.StatusCodesOfEachCommand := by
  intro i s t h
  cases i with
  | csum o =>
    obtain ⟨-, rfl⟩ := execCsum_next.1 h
    exact completed_deliverValue _ _ _
  | build o =>
    obtain rfl := execBuild_next.1 h
    exact ⟨rfl, rfl, rfl⟩
  | assemble o =>
    obtain ⟨-, -, h⟩ := execAssemble_next.1 h
    split_ifs at h <;> subst h
    · exact .inr (.inl (completed_deliverValue _ _ _))
    · exact .inr (.inr (completed_deliverValue _ _ _))
    · exact .inl (completed_deliverValue _ _ _)
  | parse o =>
    obtain ⟨-, ⟨-, rfl⟩ | ⟨-, rfl⟩⟩ := execParse_next_iff.1 h
    · exact .inr ⟨rfl, rfl, rfl⟩
    · exact .inl ⟨rfl, rfl, rfl⟩
  | frag o =>
    obtain ⟨-, h⟩ := execFrag_next.1 h
    split_ifs at h with mtu
    · subst h
      exact .inr (.inl (completed_deliverValue _ _ _))
    · obtain ⟨-, ⟨-, -, rfl⟩ | ⟨-, rfl⟩⟩ := fragNext_next.1 h
      · exact .inr (.inr ⟨rfl, rfl⟩)
      · exact .inl (completed_deliverValue _ _ _)

end Sys2Proof.Machine
end

section
/-! PROOFS. The Checksum Engine (`40_checksum.md`): `Sum16` as a function of the exact word total, then what each law of
R83 to R85 says of that total. -/

namespace Sys2Proof.Machine

/-! ### The one's-complement residue (R84 items 1 and 2) -/

/-- The representative of `n` modulo `0xFFFF` that a one's-complement sum takes: 0 for 0 only, else in 1 .. `0xFFFF`. -/
def onesResidue (n : Nat) : Nat := if n = 0 then 0 else (n - 1) % 65535 + 1

/-- A 16-bit value with the residue of `n`, zero exactly when `n` is, is the representative of `n`. -/
theorem eq_onesResidue {x n : Nat} (hx : x < 65536) (zero : x = 0 ↔ n = 0) (residue : x % 65535 = n % 65535) :
    x = onesResidue n := by
  unfold onesResidue
  split <;> omega

theorem onesResidue_lt (n : Nat) : onesResidue n < 65536 := by
  unfold onesResidue
  split <;> omega

theorem onesResidue_eq_zero_iff {n : Nat} : onesResidue n = 0 ↔ n = 0 := by
  unfold onesResidue
  split <;> omega

theorem onesResidue_mod (n : Nat) : onesResidue n % 65535 = n % 65535 := by
  unfold onesResidue
  split <;> omega

theorem onesResidue_eq_ones {n : Nat} (pos : 0 < n) (multiple : n % 65535 = 0) : onesResidue n = 0xFFFF :=
  (eq_onesResidue (by omega) (by omega) (by omega)).symm

theorem foldCarries_eq_zero_iff (k acc : Nat) : foldCarries k acc = 0 ↔ acc = 0 := by
  constructor
  · intro zero
    have pos := foldCarries_pos k acc
    omega
  · rintro rfl
    exact foldCarries_of_lt k 0 (by decide)

/-- The fold keeps the residue of the exact total, keeps zero apart, and ends in 16 bits: no other value is left. -/
theorem sum16_toNat_eq_onesResidue (p : Config.Params) {b : List Byte} (fits : wordTotal b < 2 ^ 31) :
    (sum16 p.accW b).toNat = onesResidue (wordTotal b) := by
  have folded : (sum16 p.accW b).toNat = foldCarries p.accW (wordTotal b) := by
    rw [sum16_toNat, sum16Acc, sumWords_zero_eq p b fits]
  refine eq_onesResidue (sum16 p.accW b).isLt ?_ ?_
  · rw [folded, foldCarries_eq_zero_iff]
  · rw [folded, foldCarries_mod]

/-- `Sum16` is a function of the exact total alone, whatever the accumulator's width. -/
theorem sum16_eq_ofNat (p : Config.Params) {b : List Byte} (fits : wordTotal b < 2 ^ 31) :
    sum16 p.accW b = BitVec.ofNat 16 (onesResidue (wordTotal b)) := by
  rw [← sum16_toNat_eq_onesResidue p fits, BitVec.ofNat_toNat, BitVec.setWidth_eq]

theorem sum16_congr (p q : Config.Params) {a b : List Byte} (len : b.length ≤ 65535)
    (total : wordTotal a = wordTotal b) : sum16 p.accW a = sum16 q.accW b := by
  have fits := wordTotal_lt b len
  rw [sum16_eq_ofNat p (total ▸ fits), sum16_eq_ofNat q fits, total]

theorem sum16_eq_ones (p : Config.Params) {b : List Byte} (len : b.length ≤ 65535) (pos : 0 < wordTotal b)
    (multiple : wordTotal b % 65535 = 0) : sum16 p.accW b = 0xFFFF := by
  rw [sum16_eq_ofNat p (wordTotal_lt b len), onesResidue_eq_ones pos multiple]; rfl

theorem csum16_of_sum16_eq_zero {w : Nat} {b : List Byte} (h : sum16 w b = 0) : csum16 w b = 0xFFFF := by
  rw [csum16, h]; rfl

theorem csum16_of_sum16_eq_ones {w : Nat} {b : List Byte} (h : sum16 w b = 0xFFFF) : csum16 w b = 0 := by
  rw [csum16, h]; rfl

theorem wordTotal_eq_zero_iff (b : List Byte) : wordTotal b = 0 ↔ ∀ x ∈ b, x = 0 := by
  have byte (x : Byte) : x.toNat = 0 ↔ x = 0#8 := BitVec.toNat_inj (y := 0#8)
  induction b using List.twoStepInduction with
  | nil => simp
  | singleton x => simp [byte]
  | cons_cons x y r ih _ => simp [wordTotal_cons_cons, ih, byte, and_assoc]

theorem sum16_eq_zero_iff (p : Config.Params) {b : List Byte} (len : b.length ≤ 65535) :
    (sum16 p.accW b).toNat = 0 ↔ ∀ x ∈ b, x = 0 := by
  rw [sum16_toNat_eq_onesResidue p (wordTotal_lt b len), onesResidue_eq_zero_iff, wordTotal_eq_zero_iff]

/-- Settles O17: the sum is `onesResidue` of the exact total. -/
theorem sum16IsOnesComplementSum : Obligations.Sum16IsOnesComplementSum := by
  intro p b len
  have sum := sum16_toNat_eq_onesResidue p (wordTotal_lt b len)
  exact ⟨sum16_eq_zero_iff p len, by rw [sum, onesResidue_mod], sum⟩

/-- Settles O18: the total of 65535 bytes fits 31 bits, so that every accumulator holds it exactly. -/
theorem sumIsExactAndIndependentOfAccumulatorWidth : Obligations.SumIsExactAndIndependentOfAccumulatorWidth := by
  refine ⟨fun p b len => ?_, fun p q b len => ?_, fun p => ⟨?_, ?_⟩⟩
  · have total := wordTotal_lt b len
    exact ⟨sumWords_zero_eq p b total, total, csum16_toNat p.accW b⟩
  · rw [csum16, csum16, sum16_congr p q len rfl]
  · rw [sum16_eq_ofNat p (by decide)]; simp [wordTotal_cons_cons, onesResidue]
  · rw [sum16_eq_ofNat p (by decide)]; simp [wordTotal_cons_cons, onesResidue]

/-! ### The rounds of the fold (R84 item 3) -/

/-- One round of the fold: the carry out of the low 16 bits is added back into them. -/
def endAroundCarry (acc : Nat) : Nat := acc % 65536 + acc / 65536

/-- A round on a 16-bit value changes nothing, so the loop may as well not look whether it is done. -/
theorem foldCarries_succ (k acc : Nat) : foldCarries (k + 1) acc = foldCarries k (endAroundCarry acc) := by
  rcases Nat.lt_or_ge acc 65536 with done | carry
  · have same : endAroundCarry acc = acc := by unfold endAroundCarry; omega
    rw [same, foldCarries_of_lt _ _ done, foldCarries_of_lt _ _ done]
  · exact foldCarries_succ_of_le k acc carry

theorem endAroundCarry_le {acc : Nat} (h : acc < 2 ^ 32) : endAroundCarry acc ≤ 0x1FFFE := by
  unfold endAroundCarry; omega

theorem endAroundCarry_twice_lt {acc : Nat} (h : acc < 2 ^ 32) : endAroundCarry (endAroundCarry acc) < 65536 := by
  unfold endAroundCarry; omega

theorem foldCarries_add_two {acc : Nat} (h : acc < 2 ^ 32) (k : Nat) :
    foldCarries (k + 2) acc = endAroundCarry (endAroundCarry acc) := by
  rw [foldCarries_succ, foldCarries_succ, foldCarries_of_lt _ _ (endAroundCarry_twice_lt h)]

/-- Settles O19: after two rounds a 32-bit accumulator holds 16 bits. -/
theorem foldTakesAtMostTwoRounds : Obligations.FoldTakesAtMostTwoRounds := by
  intro acc k h two
  obtain ⟨k, rfl⟩ := Nat.exists_eq_add_of_le' two
  rw [foldCarries_add_two h k, foldCarries_add_two h 0]
  exact ⟨endAroundCarry_le h, rfl, Nat.le_of_lt_succ (endAroundCarry_twice_lt h)⟩

/-! ### Padding, word order and byte order (R84 items 4 and 5) -/

theorem wordTotal_append_zero {b : List Byte} (odd : b.length % 2 = 1) : wordTotal (b ++ [0]) = wordTotal b := by
  induction b using List.twoStepInduction with
  | nil => simp at odd
  | singleton x => simp [wordTotal_cons_cons]
  | cons_cons x y r ih _ =>
    simp only [List.length_cons] at odd
    simp only [List.cons_append, wordTotal_cons_cons, ih (by omega)]

theorem wordTotal_append_zero_zero (b : List Byte) : wordTotal (b ++ [0, 0]) = wordTotal b := by
  rcases Nat.mod_two_eq_zero_or_one b.length with even | odd
  · rw [wordTotal_append b _ even]; rfl
  · have even : (b ++ [0]).length % 2 = 0 := by rw [List.length_append, List.length_singleton]; omega
    rw [List.append_cons, wordTotal_append _ _ even, wordTotal_append_zero odd]; rfl

theorem sum16_append_zero (p : Config.Params) {b : List Byte} (len : b.length ≤ 65535) (odd : b.length % 2 = 1) :
    sum16 p.accW (b ++ [0]) = sum16 p.accW b :=
  sum16_congr p p len (wordTotal_append_zero odd)

/-- The total of a sequence of words whose bytes are `f w` and `g w`. -/
theorem wordTotal_flatMap {α : Type} (f g : α → Byte) (ws : List α) :
    wordTotal (ws.flatMap fun w => [f w, g w])
      = (ws.map fun w => (f w).toNat).sum * 256 + (ws.map fun w => (g w).toNat).sum := by
  induction ws with
  | nil => simp
  | cons w ws ih =>
    simp only [List.flatMap_cons, List.cons_append, List.nil_append, wordTotal_cons_cons, ih, List.map_cons,
      List.sum_cons]
    omega

theorem length_flatMap_pair {α : Type} (f g : α → Byte) (ws : List α) :
    (ws.flatMap fun w => [f w, g w]).length = 2 * ws.length := by
  simp [List.length_flatMap, Nat.mul_comm]

theorem wordTotal_perm {ws ws' : List (Byte × Byte)} (perm : ws'.Perm ws) :
    wordTotal (ws'.flatMap fun w => [w.1, w.2]) = wordTotal (ws.flatMap fun w => [w.1, w.2]) := by
  rw [wordTotal_flatMap, wordTotal_flatMap, (perm.map fun w => w.1.toNat).sum_eq, (perm.map fun w => w.2.toNat).sum_eq]

theorem swapBytes_toNat (v : Half) :
    (v.extractLsb' 0 8 ++ v.extractLsb' 8 8).toNat = v.toNat % 256 * 256 + v.toNat / 256 := by
  rw [toNat_append_eq]
  exact congrArg₂ (· * 256 + ·) (byte16_one_toNat v) (byte16_zero_toNat v)

/-- Since `256 * 256` is 1 modulo `0xFFFF`, exchanging the weights 256 and 1 multiplies the residue by 256, which on
16 bits is the exchange of the two bytes. -/
theorem onesResidue_swap (a b : Nat) :
    onesResidue (b * 256 + a) = onesResidue (a * 256 + b) % 256 * 256 + onesResidue (a * 256 + b) / 256 := by
  have lt := onesResidue_lt (a * 256 + b)
  have zero := onesResidue_eq_zero_iff (n := a * 256 + b)
  have residue := onesResidue_mod (a * 256 + b)
  exact (eq_onesResidue (by omega) (by omega) (by omega)).symm

theorem sum16_swapped (p : Config.Params) {ws : List (Byte × Byte)} (len : 2 * ws.length ≤ 65535) :
    sum16 p.accW (ws.flatMap fun w => [w.2, w.1])
      = (sum16 p.accW (ws.flatMap fun w => [w.1, w.2])).extractLsb' 0 8
        ++ (sum16 p.accW (ws.flatMap fun w => [w.1, w.2])).extractLsb' 8 8 := by
  apply BitVec.eq_of_toNat_eq
  rw [swapBytes_toNat, sum16_toNat_eq_onesResidue p (wordTotal_lt _ (by rwa [length_flatMap_pair])),
    sum16_toNat_eq_onesResidue p (wordTotal_lt _ (by rwa [length_flatMap_pair])), wordTotal_flatMap, wordTotal_flatMap,
    onesResidue_swap]

/-- Settles O20: padding and reordering keep the total; swapping exchanges the weights of the bytes. -/
theorem sumUnderPaddingAndSwapping : Obligations.SumUnderPaddingAndSwapping := by
  intro p ws b lenWs lenB
  have lenB' : b.length ≤ 65535 := by omega
  exact ⟨sum16_append_zero p lenB', sum16_congr p p lenB' (wordTotal_append_zero_zero b),
    fun ws' perm => sum16_congr p p (by rwa [length_flatMap_pair]) (wordTotal_perm perm), sum16_swapped p lenWs⟩

/-! ### One bit (R84 item 6) -/

/-- Setting a bit that is clear adds its weight. -/
theorem toNat_xor_twoPow_of_clear {w : Nat} {x : BitVec w} {k : Nat} (clear : x.getLsbD k = false) :
    (x ^^^ BitVec.twoPow w k).toNat = x.toNat + (BitVec.twoPow w k).toNat := by
  have disjoint : x &&& BitVec.twoPow w k = 0#w := by simp [BitVec.and_twoPow, clear]
  rw [← BitVec.toNat_add_of_and_eq_zero disjoint, BitVec.add_eq_or_of_and_eq_zero _ _ disjoint]
  congr 1
  ext i hi
  rcases eq_or_ne i k with rfl | ne
  · rw [BitVec.getLsbD_eq_getElem hi] at clear
    simp [clear]
  · simp [ne]

/-- Flipping a bit adds its weight or takes it away. -/
theorem toNat_xor_twoPow {w k : Nat} (x : BitVec w) (hk : k < w) :
    (x ^^^ BitVec.twoPow w k).toNat = x.toNat + 2 ^ k ∨ x.toNat = (x ^^^ BitVec.twoPow w k).toNat + 2 ^ k := by
  have weight : (BitVec.twoPow w k).toNat = 2 ^ k := BitVec.toNat_twoPow_of_lt hk
  cases bit : x.getLsbD k with
  | false => exact .inl (weight ▸ toNat_xor_twoPow_of_clear bit)
  | true =>
    have clear : (x ^^^ BitVec.twoPow w k).getLsbD k = false := by simp [bit, hk]
    have back := toNat_xor_twoPow_of_clear clear
    rw [BitVec.xor_assoc, BitVec.xor_self, BitVec.xor_zero, weight] at back
    exact .inr back

/-- Flipping one bit changes the total by a power of two below `2 ^ 16`, so it changes its residue. -/
theorem wordTotal_flip_mod_ne {b : List Byte} {i k : Nat} (hi : i < b.length) (hk : k < 8) :
    wordTotal (b.set i (b.getD i 0 ^^^ BitVec.twoPow 8 k)) % 65535 ≠ wordTotal b % 65535 := by
  have total := wordTotal_set b i (b.getD i 0 ^^^ BitVec.twoPow 8 k) hi
  have flip := toNat_xor_twoPow (b.getD i 0) hk
  have pos : 0 < 2 ^ k := Nat.two_pow_pos k
  have le : 2 ^ k ≤ 2 ^ 7 := Nat.pow_le_pow_right (by omega) (by omega)
  split at total <;> omega

/-- Settles O21: equal sums would have equal residues. -/
theorem oneBitChangesTheSum : Obligations.OneBitChangesTheSum := by
  intro p b i k len hi hk same
  have residue := congrArg (fun v : Half => v.toNat % 65535) same
  simp only [sum16_toNat_eq_onesResidue p (wordTotal_lt _ len),
    sum16_toNat_eq_onesResidue p (wordTotal_lt _ (List.length_set.trans_le len)), onesResidue_mod] at residue
  exact wordTotal_flip_mod_ne hi hk residue

/-! ### The verification guarantee (R83) -/

/-- Filling a zero checksum field adds the value written to the total. -/
theorem wordTotal_fill_checksum {h : List Byte} (len : 12 ≤ h.length) (zero10 : h.getD 10 0 = 0)
    (zero11 : h.getD 11 0 = 0) (c : Half) :
    wordTotal ((h.set 10 (c.extractLsb' 8 8)).set 11 (c.extractLsb' 0 8)) = wordTotal h + c.toNat := by
  have high := wordTotal_set h 10 (c.extractLsb' 8 8) (by omega)
  have low := wordTotal_set (h.set 10 (c.extractLsb' 8 8)) 11 (c.extractLsb' 0 8) (by rw [List.length_set]; omega)
  have zero11' : (h.set 10 (c.extractLsb' 8 8)).getD 11 0 = 0 := by
    simpa [List.getD_eq_getElem?_getD] using zero11
  have put : (c.extractLsb' 8 8).toNat * 256 + (c.extractLsb' 0 8).toNat = c.toNat := byte16_pair c
  have zero : (0 : Byte).toNat = 0 := rfl
  rw [zero10, zero, if_pos (by decide)] at high
  rw [zero11', zero, if_neg (by decide)] at low
  omega

/-- A sum and its checksum add up to a multiple of `0xFFFF`. -/
theorem wordTotal_add_csum16 (p : Config.Params) {b : List Byte} (len : b.length ≤ 65535) :
    0 < wordTotal b + (csum16 p.accW b).toNat ∧ (wordTotal b + (csum16 p.accW b).toNat) % 65535 = 0 := by
  have lt := onesResidue_lt (wordTotal b)
  have zero := onesResidue_eq_zero_iff (n := wordTotal b)
  have residue := onesResidue_mod (wordTotal b)
  rw [csum16_toNat, sum16_toNat_eq_onesResidue p (wordTotal_lt b len)]
  omega

/-- Settles O22: the total with the field filled is positive and a multiple of `0xFFFF`. -/
theorem correctChecksumVerifies : Obligations.CorrectChecksumVerifies := by
  intro p h len _ len12 zero10 zero11
  obtain ⟨pos, multiple⟩ := wordTotal_add_csum16 p len
  rw [← wordTotal_fill_checksum len12 zero10 zero11] at pos multiple
  have ones := sum16_eq_ones p (by simpa using len) pos multiple
  exact ⟨ones, csum16_of_sum16_eq_ones ones⟩

/-! ### The command CSUM (R82) -/

theorem csum16_of_forall_zero (p : Config.Params) {b : List Byte} (len : b.length ≤ 65535) (zero : ∀ x ∈ b, x = 0) :
    csum16 p.accW b = 0xFFFF :=
  csum16_of_sum16_eq_zero (BitVec.eq_of_toNat_eq ((sum16_eq_zero_iff p len).2 zero))

theorem wordTotal_of_forall_ones {b : List Byte} (even : b.length % 2 = 0) (ones : ∀ x ∈ b, x = 0xFF) :
    wordTotal b = 65535 * (b.length / 2) := by
  induction b using List.twoStepInduction with
  | nil => rfl
  | singleton x => simp at even
  | cons_cons x y r ih _ =>
    obtain ⟨rfl, rfl, rest⟩ : x = 0xFF ∧ y = 0xFF ∧ ∀ z ∈ r, z = 0xFF := by simpa using ones
    simp only [List.length_cons] at even ⊢
    rw [wordTotal_cons_cons, ih (by omega) rest]
    show 255 * 256 + 255 + 65535 * (r.length / 2) = 65535 * ((r.length + 1 + 1) / 2)
    omega

theorem csum16_of_forall_ones (p : Config.Params) {b : List Byte} (len : b.length ≤ 65535) (pos : 0 < b.length)
    (even : b.length % 2 = 0) (ones : ∀ x ∈ b, x = 0xFF) : csum16 p.accW b = 0 := by
  have total := wordTotal_of_forall_ones even ones
  exact csum16_of_sum16_eq_ones (sum16_eq_ones p len (by omega) (by omega))

theorem Buffer.forall_mem_bytes {b : Buffer} {n : Nat} {v : Byte} (h : ∀ a, a < n → b.read a = v) :
    ∀ x ∈ b.bytes 0 n, x = v := by
  simpa [Buffer.bytes] using h

/-- CSUM of no byte does not look at IN. -/
theorem execCsum_of_len_zero {o : Operands} {s t : State} (len : o.len.toNat = 0) (h : exec (.csum o) s = .next t)
    (bi : Buffer) : exec (.csum o) { s with inBuf := bi } = .next { t with inBuf := bi } := by
  obtain ⟨-, rfl⟩ := execCsum_next.1 h
  refine execCsum_next.2 ⟨by omega, ?_⟩
  rw [len]
  rfl

/-- R82's example. -/
theorem csum16_example (p : Config.Params) :
    csum16 p.accW [0x00, 0x01, 0xF2, 0x03, 0xF4, 0xF5, 0xF6, 0xF7] = 0x220D := by
  rw [csum16, sum16_eq_ofNat p (by decide)]; simp [wordTotal_cons_cons, onesResidue]

/-- Settles O23: what `execCsum_next` says of the command, and the corner cases as facts about the checksum of its
span. -/
theorem csumDeliversTheChecksum : Obligations.CsumDeliversTheChecksum := by
  intro s o
  refine ⟨pack_op 1 o, csum16_example s.params, fun short => needIn_of_lt (s := accept _ s) _ short, fun input => ?_⟩
  have run := execCsum_next.2 ⟨input, rfl⟩
  have first := exec_firstStep run
  obtain ⟨inBuf, outside, cmd⟩ := first.frame
  have len : (s.inBuf.bytes 0 o.len.toNat).length ≤ 65535 := by
    rw [Buffer.length_bytes]; exact Nat.le_of_lt_succ o.len.isLt
  refine ⟨_, run, completed_deliverValue _ _ _, rfl, cmd, inBuf, first.sameBytes_outBuf nofun,
    first.sameBytes_fb nofun, outside, ?ignored, ?empty, ?odd, ?zero, ?ones⟩
  case ignored => exact fun o' eq => ⟨_, execCsum_of_len_eq eq run, rfl⟩
  case empty =>
    exact fun none => ⟨csum16_of_forall_zero s.params len (Buffer.forall_mem_bytes fun a lt => by omega),
      execCsum_of_len_zero none run⟩
  case odd => exact fun odd => (congrArg (~~~ ·) (sum16_append_zero s.params len (by simpa using odd))).symm
  case zero => exact fun zero => csum16_of_forall_zero s.params len (Buffer.forall_mem_bytes zero)
  case ones =>
    exact fun pos even ones => csum16_of_forall_ones s.params len (by simpa using pos) (by simpa using even)
      (Buffer.forall_mem_bytes ones)

end Sys2Proof.Machine
end

section
/-! PROOFS. The Header Codec, build side (`41_header_build.md`): a header is the fields it was built from, and PARSE
gives them back; then BUILD, ASSEMBLE, and the invariants of every built header. -/

namespace Sys2Proof.Machine

/-! ### Decoding undoes encoding, field by field (R50 to R53) -/

theorem byte16_append (v : Half) : byte16 v 0 ++ byte16 v 1 = v :=
  (extract_append_extract v 0 8 8).trans (extract_all v)

theorem byte32_append (v : Word) : byte32 v 0 ++ byte32 v 1 ++ byte32 v 2 ++ byte32 v 3 = v := by
  apply BitVec.eq_of_toNat_eq
  rw [toNat_append_eq, toNat_append_eq, toNat_append_eq, ← byte32_quad v]
  omega

theorem flagsWord_rf (df mf : BitVec 1) (fragOff : BitVec 13) : (flagsWord df mf fragOff).extractLsb' 15 1 = 0 := by
  rw [flagsWord, extract_append_left _ _ _ _ (by decide), extract_append_left _ _ _ _ (by decide),
    extract_append_left _ _ _ _ (by decide)]
  exact extract_all _

theorem flagsWord_df (df mf : BitVec 1) (fragOff : BitVec 13) : (flagsWord df mf fragOff).extractLsb' 14 1 = df := by
  rw [flagsWord, extract_append_left _ _ _ _ (by decide), extract_append_left _ _ _ _ (by decide),
    extract_append_right _ _ _ _ (by decide)]
  exact extract_all _

theorem flagsWord_mf (df mf : BitVec 1) (fragOff : BitVec 13) : (flagsWord df mf fragOff).extractLsb' 13 1 = mf := by
  rw [flagsWord, extract_append_left _ _ _ _ (by decide), extract_append_right _ _ _ _ (by decide)]
  exact extract_all _

theorem flagsWord_fragOff (df mf : BitVec 1) (fragOff : BitVec 13) :
    (flagsWord df mf fragOff).extractLsb' 0 13 = fragOff := by
  rw [flagsWord, extract_append_right _ _ _ _ (by decide)]
  exact extract_all _

section
variable (w : Nat) (csum : Half) (tos : Byte) (totalLen id : Half) (df mf : BitVec 1) (fragOff : BitVec 13)
  (ttl proto : Byte) (src dst : Word)

theorem byte0_headerWith :
    (headerWith csum tos totalLen id df mf fragOff ttl proto src dst).toList.getD 0 0 = 0x45 := rfl

theorem totalLenOf_headerWith :
    totalLenOf (headerWith csum tos totalLen id df mf fragOff ttl proto src dst).toList = totalLen :=
  byte16_append totalLen

theorem checksumOf_headerWith :
    checksumOf (headerWith csum tos totalLen id df mf fragOff ttl proto src dst).toList = csum :=
  byte16_append csum

theorem be16_headerWith_id : be16 (headerWith csum tos totalLen id df mf fragOff ttl proto src dst).toList 4 = id :=
  byte16_append id

theorem be16_headerWith_flags :
    be16 (headerWith csum tos totalLen id df mf fragOff ttl proto src dst).toList 6 = flagsWord df mf fragOff :=
  byte16_append (flagsWord df mf fragOff)

theorem be32_headerWith_src : be32 (headerWith csum tos totalLen id df mf fragOff ttl proto src dst).toList 12 = src :=
  byte32_append src

theorem be32_headerWith_dst : be32 (headerWith csum tos totalLen id df mf fragOff ttl proto src dst).toList 16 = dst :=
  byte32_append dst

/-- The view of an encoded header is the fields it was encoded from. -/
theorem withView_headerWith (r : Res) :
    withView (headerWith csum tos totalLen id df mf fragOff ttl proto src dst).toList r =
      { r with
        vVersion := 4, vIhl := 5, vTos := tos, vTotalLen := totalLen, vId := id, vRf := 0, vDf := df, vMf := mf
        vFragOff := fragOff, vTtl := ttl, vProto := proto, vCsum := csum, vSrc := src, vDst := dst } := by
  have version : versionOf 0x45 = 4 := by decide
  have ihl : ihlOf 0x45 = 5 := by decide
  rw [withView, byte0_headerWith, version, ihl, totalLenOf_headerWith, checksumOf_headerWith,
    be16_headerWith_id, be16_headerWith_flags, be32_headerWith_src, be32_headerWith_dst, flagsWord_rf, flagsWord_df,
    flagsWord_mf, flagsWord_fragOff]
  rfl

/-- PARSE's recomputation finds the checksum the encoder filled in (R115). -/
theorem csumOkFlag_encodeHeader :
    csumOkFlag w (encodeHeader w tos totalLen id df mf fragOff ttl proto src dst).toList = 1 := by
  rw [csumOkFlag, encodeHeader, zeroChecksum_headerWith, checksumOf_headerWith, beq_self_eq_true]
  rfl

end

/-! ### The fields of a built header -/

/-- No header is built with ttl 0 (R91, R94 item 6). -/
theorem ttlEff_ne_zero (ttl : Byte) : ttlEff ttl ≠ 0 := by
  unfold ttlEff
  split
  · decide
  · assumption

section
variable {w : Nat} {h : List Byte} {tos : Byte} {totalLen : Nat} {id : Half} {df mf : Bool} {fragOff : Nat}
  {ttl proto : Byte} {src dst : Word}

/-- A header whose checksum field is right sums to `0xFFFF` (R83, R94 item 2). -/
theorem HeaderFields.sum16_eq_ones {p : Config.Params}
    (f : HeaderFields p.accW h tos totalLen id df mf fragOff ttl proto src dst) : sum16 p.accW h = 0xFFFF := by
  have len := f.length
  have high := wordTotal_set h 10 0 (by omega)
  have low := wordTotal_set (h.set 10 0) 11 0 (by rw [List.length_set]; omega)
  have keeps : (h.set 10 0).getD 11 0 = h.getD 11 0 := by simp [List.getD_eq_getElem?_getD]
  have zeroed : ((h.set 10 0).set 11 0).length ≤ 65535 := by rw [List.length_set, List.length_set]; omega
  obtain ⟨pos, multiple⟩ := wordTotal_add_csum16 p zeroed
  have zero : (0 : Byte).toNat = 0 := rfl
  rw [zero, if_pos (by decide)] at high
  rw [zero, keeps, if_neg (by decide)] at low
  have total : wordTotal h = wordTotal ((h.set 10 0).set 11 0) + (csum16 p.accW ((h.set 10 0).set 11 0)).toNat := by
    have checksum := f.checksum
    omega
  rw [← total] at pos multiple
  exact Machine.sum16_eq_ones p (by omega) pos multiple

/-- R112 for a buffer that begins with a header of version 4 and IHL 5: only the total-length is left to judge. -/
theorem HeaderFields.structurallyValid_iff {b : Buffer} {L : Nat}
    (f : HeaderFields w (b.bytes 0 20) tos totalLen id df mf fragOff ttl proto src dst) :
    StructurallyValid b L ↔ 20 ≤ totalLen ∧ totalLen ≤ L := by
  have byte0 : b.read 0 = 0x45 := f.byte0
  have total : (b.read 2).toNat * 256 + (b.read 3).toNat = totalLen := f.totalLen
  have toNat : (0x45 : Byte).toNat = 69 := rfl
  rw [StructurallyValid, byte0, total, toNat]
  omega

/-- What R94 says of any header with an effective ttl, once its fields are known. -/
theorem HeaderFields.sum_and_ttl {p : Config.Params}
    (f : HeaderFields p.accW h tos totalLen id df mf fragOff (ttlEff ttl) proto src dst) :
    sum16 p.accW h = 0xFFFF ∧ h.getD 8 0 ≠ 0 :=
  ⟨f.sum16_eq_ones, f.ttl ▸ ttlEff_ne_zero ttl⟩

end

theorem unfragmentedHeader_fields (p : Config.Params) (o : Operands) (totalLen : Half) :
    HeaderFields p.accW (unfragmentedHeader p o totalLen).toList p.tosBuild totalLen.toNat o.id
      (decide (o.df = 1)) false 0 (ttlEff o.ttl) o.proto o.src o.dst :=
  encodeHeader_fields p.accW p.tosBuild totalLen o.id o.df 0 0 (ttlEff o.ttl) o.proto o.src o.dst

theorem Buffer.bytes_eq_of_read {b : Buffer} {h : List Byte} {n : Nat} (len : h.length = n)
    (read : ∀ i, i < n → b.read i = h.getD i 0) : b.bytes 0 n = h := by
  subst len
  apply List.ext_getElem (by simp)
  intro i _ hi
  simp [read i hi, List.getD_eq_getElem?_getD, hi]

/-! ### PARSE of a built header (R96, R98) -/

/-- PARSE of a buffer that begins with a header of BUILD or ASSEMBLE, long enough for the total-length. -/
theorem execParse_unfragmentedHeader {s : State} {o o' : Operands} {totalLen : Half}
    (header : s.inBuf.bytes 0 20 = (unfragmentedHeader s.params o totalLen).toList) (long : 20 ≤ totalLen.toNat)
    (fits : totalLen.toNat ≤ o'.len.toNat) (input : o'.len.toNat ≤ s.inBuf.size) :
    exec (.parse o') s = .next (deliver
      { withView (unfragmentedHeader s.params o totalLen).toList (resultBase stOk (accept { o' with op := 4 } s)) with
        valid := 1, hasOptions := 0, csumOk := 1 }
      (accept { o' with op := 4 } s)) := by
  have fields := unfragmentedHeader_fields s.params o totalLen
  rw [← header] at fields
  have hlen : 4 * ((s.inBuf.read 0).toNat % 16) = 20 := by
    rw [show s.inBuf.read 0 = 0x45 from fields.byte0]; rfl
  refine execParse_next_iff.2 ⟨input, .inr ⟨fields.structurallyValid_iff.2 ⟨long, fits⟩, ?_⟩⟩
  have noOptions : hasOptionsFlag (hlenOf 0x45) = 0 := by decide
  rw [hlen, header, parseValid, (unfragmentedHeader_fields _ _ _).byte0, noOptions, accept_params, unfragmentedHeader,
    csumOkFlag_encodeHeader]

/-- Settles O28: PARSE of the header delivers its view, which is the fields BUILD encoded. -/
theorem builtHeaderRoundTrips : Obligations.BuiltHeaderRoundTrips := by
  intro s t s' o o' build params long fits input begins
  obtain rfl := execBuild_next.1 build
  have header : s'.inBuf.bytes 0 20 = (unfragmentedHeader s'.params o o.len).toList := by
    rw [params]; exact Buffer.bytes_eq_of_read (Vector.length_toList ..) begins
  have parse := execParse_unfragmentedHeader header long fits input
  rw [params, unfragmentedHeader, encodeHeader, withView_headerWith] at parse
  exact ⟨_, parse, ⟨rfl, rfl, rfl⟩, rfl, rfl, rfl, rfl, rfl, rfl, rfl, rfl, rfl, rfl, rfl, rfl, rfl, rfl, rfl, rfl,
    (byte16_pair _).symm⟩

/-! ### BUILD (R92, R93) -/

/-- Settles O24: `execBuild_next` says what BUILD does; of R112's tests only the one on the total-length can fail. -/
theorem buildDeliversTheHeader : Obligations.BuildDeliversTheHeader := by
  intro s o
  have run := execBuild_next (o := o) (s := s).2 rfl
  have fields := unfragmentedHeader_fields s.params o o.len
  refine ⟨pack_op 2 o, _, run, ⟨rfl, rfl, rfl⟩, fields, rfl, .refl _, .refl _, .refl _, ⟨rfl, rfl, rfl, rfl⟩,
    fun _ _ _ => execBuild_next.2 rfl, fun a => ⟨_, execBuild_aux a run, rfl⟩, fun short s' o' input begins => ?_⟩
  rw [← Buffer.bytes_eq_of_read fields.length begins] at fields
  have invalid : ¬ StructurallyValid s'.inBuf o'.len.toNat := fun valid =>
    absurd (fields.structurallyValid_iff.1 valid).1 (Nat.not_le_of_lt short)
  exact ⟨_, execParse_next_iff.2 ⟨input, .inl ⟨invalid, rfl⟩⟩, ⟨rfl, rfl, rfl⟩, rfl⟩

/-! ### ASSEMBLE (R95 to R97) -/

section
variable {s : State} {o : Operands}

theorem execAssemble_of_fits (input : o.len.toNat ≤ s.inBuf.size) (output : o.aux.toNat ≤ s.outBuf.size)
    (fits : 20 + o.len.toNat ≤ 65535 ∧ 20 + o.len.toNat ≤ o.aux.toNat) :
    exec (.assemble o) s = .next (deliverValue stOk (BitVec.ofNat 16 (20 + o.len.toNat))
      { accept { o with op := 3 } s with outBuf := assembled o s }) := by
  refine execAssemble_next.2 ⟨input, output, ?_⟩
  rw [if_neg (by omega), if_neg (by omega)]

/-- A failing ASSEMBLE only chooses between the two names of its failure, LengthRange first (R97). -/
theorem execAssemble_of_not_fits (input : o.len.toNat ≤ s.inBuf.size) (output : o.aux.toNat ≤ s.outBuf.size)
    (fails : ¬ (20 + o.len.toNat ≤ 65535 ∧ 20 + o.len.toNat ≤ o.aux.toNat)) :
    exec (.assemble o) s = .next
      (deliverValue (if 65535 < 20 + o.len.toNat then stLengthRange else stBufferTooSmall) 0
        (accept { o with op := 3 } s)) := by
  refine execAssemble_next.2 ⟨input, output, ?_⟩
  by_cases long : 65535 < 20 + o.len.toNat
  · rw [if_pos long, if_pos long]
  · rw [if_neg long, if_neg long, if_pos (by omega)]

/-- A completion with OK was one that fits, and OUT holds the packet. -/
theorem execAssemble_of_ok {t : State} (run : exec (.assemble o) s = .next t) (ok : t.res.status = stOk) :
    20 + o.len.toNat ≤ 65535 ∧ t.outBuf = assembled o s := by
  obtain ⟨-, -, h⟩ := execAssemble_next.1 run
  split_ifs at h with long
  · subst h; exact absurd ok (by decide : stLengthRange ≠ stOk)
  · subst h; exact absurd ok (by decide : stBufferTooSmall ≠ stOk)
  · subst h; exact ⟨Nat.le_of_not_lt long, rfl⟩

/-- The total-length of a packet that fits is not truncated to its 16 bits. -/
theorem total_toNat (fits : 20 + o.len.toNat ≤ 65535) :
    (BitVec.ofNat 16 (20 + o.len.toNat)).toNat = 20 + o.len.toNat :=
  Nat.mod_eq_of_lt (Nat.lt_succ_of_le fits)

theorem assembled_header (o : Operands) (s : State) :
    (assembled o s).bytes 0 20 = (unfragmentedHeader s.params o (BitVec.ofNat 16 (20 + o.len.toNat))).toList :=
  Buffer.bytes_eq_of_read (Vector.length_toList ..) fun i hi => by rw [assembled_read, if_pos hi]

theorem assembled_payload (o : Operands) (s : State) {j : Nat} (hj : j < o.len.toNat) :
    (assembled o s).read (20 + j) = s.inBuf.read j := by
  rw [assembled_read, if_neg (by omega), if_pos (by omega), Nat.add_sub_cancel_left]

theorem assembled_rest (o : Operands) (s : State) {a : Nat} (ha : 20 + o.len.toNat ≤ a) :
    (assembled o s).read a = s.outBuf.read a := by
  rw [assembled_read, if_neg (by omega), if_neg (by omega)]

theorem assembled_fields (s : State) (fits : 20 + o.len.toNat ≤ 65535) :
    HeaderFields s.params.accW ((assembled o s).bytes 0 20) s.params.tosBuild (20 + o.len.toNat) o.id
      (decide (o.df = 1)) false 0 (ttlEff o.ttl) o.proto o.src o.dst := by
  have fields := unfragmentedHeader_fields s.params o (BitVec.ofNat 16 (20 + o.len.toNat))
  rwa [← assembled_header, total_toNat fits] at fields

end

/-- Settles O25: either the packet fits and `assembled` is OUT, or it does not and nothing is looked at. -/
theorem assembleWritesAllOrNothing : Obligations.AssembleWritesAllOrNothing := by
  intro s o input output
  refine ⟨pack_op 3 o, ?_⟩
  by_cases fits : 20 + o.len.toNat ≤ 65535 ∧ 20 + o.len.toNat ≤ o.aux.toNat
  · refine ⟨_, execAssemble_of_fits input output fits, rfl, rfl, rfl, .refl _, .refl _, ⟨rfl, rfl, rfl, rfl⟩,
      fun long => by omega, fun _ small => by omega, fun fails => by omega, fun short _ => ?_⟩
    exact ⟨rfl, total_toNat short, rfl, assembled_fields s short, fun _ => assembled_payload o s,
      fun _ => assembled_rest o s⟩
  · refine ⟨_, execAssemble_of_not_fits input output fits, rfl, rfl, rfl, .refl _, .refl _, ⟨rfl, rfl, rfl, rfl⟩,
      fun long => if_pos long, fun short _ => if_neg (Nat.not_lt_of_le short), fun _ => ⟨rfl, .refl _, ?_⟩,
      fun short room => absurd ⟨short, room⟩ fits⟩
    exact fun bi bo inSize outSize => execAssemble_of_not_fits (inSize ▸ input) (outSize ▸ output) fits

/-- Settles O26: the first 20 bytes of the packet are the header PARSE gives back. -/
theorem assembledPacketParsesBack : Obligations.AssembledPacketParsesBack := by
  intro s o input output short room
  refine ⟨_, _, execAssemble_of_fits input output ⟨short, room⟩, execBuild_next.2 rfl, fun i hi => ?_,
    fun _ => assembled_payload o s, fun _ => assembled_rest o s, fun s' o' params len input' begins => ?_⟩
  · exact (assembled_read o s i).trans (if_pos hi)
  · have total := total_toNat short
    have header : s'.inBuf.bytes 0 20
        = (unfragmentedHeader s'.params o (BitVec.ofNat 16 (20 + o.len.toNat))).toList := by
      rw [params, ← assembled_header]
      exact Buffer.bytes_congr fun i hi => begins _ (by omega)
    have parse := execParse_unfragmentedHeader header (by omega) (by omega) input'
    rw [unfragmentedHeader, encodeHeader, withView_headerWith] at parse
    exact ⟨_, parse, ⟨rfl, rfl, rfl⟩, rfl, rfl, rfl, total⟩

/-! ### The header of the fragment in FB during a sink call (R94, R135) -/

/-- Neither the total-length nor the fragment-offset of a fragment is truncated to its field (R137). -/
theorem fragHeader_fields (p : Config.Params) (c : Cmd) {off n : Nat} (hoff : off < 65536) (hn : n ≤ 65515) :
    HeaderFields p.accW (fragHeader p c off n).toList p.tosBuild (20 + n) c.id false (decide (off + n < c.len.toNat))
      (off / 8) (ttlEff c.ttl) c.proto c.src c.dst := by
  have totalLen : (BitVec.ofNat 16 (20 + n)).toNat = 20 + n := Nat.mod_eq_of_lt (by omega)
  have fragOff : (BitVec.ofNat 13 (off / 8)).toNat = off / 8 := Nat.mod_eq_of_lt (by omega)
  have mf (more : Bool) : decide (BitVec.ofBool more = 1) = more := by cases more <;> rfl
  have fields := encodeHeader_fields p.accW p.tosBuild (BitVec.ofNat 16 (20 + n)) c.id 0 (sliceMf off n c.len.toNat)
    (BitVec.ofNat 13 (off / 8)) (ttlEff c.ttl) c.proto c.src c.dst
  rwa [totalLen, fragOff, sliceMf, mf] at fields

section
variable {s : State} (call : InSinkCall s)
include call

theorem InSinkCall.header :
    s.fb.bytes 0 20 = (fragHeader s.params s.cmd s.work.off.toNat s.work.n.toNat).toList := by
  have handed := call.handed
  rw [call.fbLen, Buffer.bytes_append] at handed
  exact (List.append_inj handed (by simp)).1

theorem InSinkCall.n_le : s.work.n.toNat ≤ 65512 := by
  have cap := call.cap_bounds.2
  rw [call.slice, sliceLen]
  omega

/-- The offset is a multiple of the capacity, and so of 8 (R127, R136). -/
theorem InSinkCall.eight_dvd_off : 8 ∣ s.work.off.toNat := by
  have mtu : 28 ≤ s.cmd.aux.toNat := le_trans (Nat.le_add_right _ _) call.mtu
  rw [call.off, call.cap, capacity_toNat _ (by omega)]
  exact Dvd.dvd.mul_left (Nat.dvd_mul_right _ _) _

theorem InSinkCall.fields :
    HeaderFields s.params.accW (s.fb.bytes 0 20) s.params.tosBuild (20 + s.work.n.toNat) s.cmd.id false
      (decide (s.work.off.toNat + s.work.n.toNat < s.cmd.len.toNat)) (s.work.off.toNat / 8) (ttlEff s.cmd.ttl)
      s.cmd.proto s.cmd.src s.cmd.dst := by
  have n := call.n_le
  rw [call.header]
  exact fragHeader_fields s.params s.cmd s.work.off.isLt (by omega)

end

/-- Settles O27: in RES.hdr, OUT and FB stands a header with known fields, and any such header keeps R94. -/
theorem builtHeadersKeepTheInvariants : Obligations.BuiltHeadersKeepTheInvariants := by
  refine ⟨fun s t o build => ?_, fun s t o run ok => ?_, fun s inv phase => ?_⟩
  · obtain rfl := execBuild_next.1 build
    have fields := unfragmentedHeader_fields s.params o o.len
    obtain ⟨sum, ttl⟩ := fields.sum_and_ttl
    exact ⟨sum, ttl, fields⟩
  · obtain ⟨short, out⟩ := execAssemble_of_ok run ok
    have fields := assembled_fields s short
    obtain ⟨sum, ttl⟩ := fields.sum_and_ttl
    rw [out]
    exact ⟨sum, ttl, fields⟩
  · have call := inv.call phase
    have fields := call.fields
    obtain ⟨sum, ttl⟩ := fields.sum_and_ttl
    exact ⟨sum, ttl, Nat.mul_div_cancel' call.eight_dvd_off, fields⟩

end Sys2Proof.Machine
end

section
/-! PROOFS. The Header Codec, parse side (`42_header_parse.md`): each fact and field PARSE delivers as arithmetic on the
bytes of IN, then the two tests of a received checksum, and what one damaged bit does to both. -/

namespace Sys2Proof.Machine

/-! ### The view in the bytes of the buffer (R50 to R53) -/

section
variable (b : Buffer) {n : Nat} (long : 20 ≤ n)
include long

theorem Buffer.getD_bytes_zero {i : Nat} (hi : i < 20) : (b.bytes 0 n).getD i 0 = b.read i := by
  rw [Buffer.getD_bytes _ _ _ _ (by omega), Nat.zero_add]

theorem be16_bytes {i : Nat} (hi : i < 19) :
    (be16 (b.bytes 0 n) i).toNat = (b.read i).toNat * 256 + (b.read (i + 1)).toNat := by
  rw [be16_toNat, b.getD_bytes_zero long (by omega), b.getD_bytes_zero long (by omega)]

theorem be32_bytes {i : Nat} (hi : i < 17) :
    (be32 (b.bytes 0 n) i).toNat = (b.read i).toNat * 2 ^ 24 + (b.read (i + 1)).toNat * 2 ^ 16
      + (b.read (i + 2)).toNat * 2 ^ 8 + (b.read (i + 3)).toNat := by
  rw [be32_toNat, b.getD_bytes_zero long (by omega), b.getD_bytes_zero long (by omega),
    b.getD_bytes_zero long (by omega), b.getD_bytes_zero long (by omega)]

theorem versionOf_bytes : (versionOf ((b.bytes 0 n).getD 0 0)).toNat = (b.read 0).toNat / 16 := by
  rw [b.getD_bytes_zero long (by decide), versionOf_toNat]

theorem ihlOf_bytes : (ihlOf ((b.bytes 0 n).getD 0 0)).toNat = (b.read 0).toNat % 16 := by
  rw [b.getD_bytes_zero long (by decide), ihlOf_toNat]

/-- A bit field of the flags and fragment-offset word (R52). -/
theorem flags_bytes (start len : Nat) :
    ((be16 (b.bytes 0 n) 6).extractLsb' start len).toNat
      = ((b.read 6).toNat * 256 + (b.read 7).toNat) / 2 ^ start % 2 ^ len := by
  rw [BitVec.extractLsb'_toNat, Nat.shiftRight_eq_div_pow, be16_bytes b long (by decide)]

theorem rf_bytes : ((be16 (b.bytes 0 n) 6).extractLsb' 15 1).toNat = (b.read 6).toNat / 128 := by
  rw [flags_bytes b long]
  omega

theorem df_bytes : ((be16 (b.bytes 0 n) 6).extractLsb' 14 1).toNat = (b.read 6).toNat / 64 % 2 := by
  rw [flags_bytes b long]
  omega

theorem mf_bytes : ((be16 (b.bytes 0 n) 6).extractLsb' 13 1).toNat = (b.read 6).toNat / 32 % 2 := by
  rw [flags_bytes b long]
  omega

theorem fragOff_bytes :
    ((be16 (b.bytes 0 n) 6).extractLsb' 0 13).toNat = (b.read 6).toNat % 32 * 256 + (b.read 7).toNat := by
  rw [flags_bytes b long]
  omega

theorem checksumOf_bytes : (checksumOf (b.bytes 0 n)).toNat = (b.read 10).toNat * 256 + (b.read 11).toNat :=
  be16_bytes b long (by decide)

end

/-! ### The facts (b) and (c) (R114, R115) -/

theorem ofBool_eq_ite (c : Bool) : BitVec.ofBool c = if c then 1 else 0 := by
  cases c <;> rfl

theorem hasOptionsFlag_bytes (b : Buffer) {n : Nat} (long : 20 ≤ n) :
    hasOptionsFlag (hlenOf ((b.bytes 0 n).getD 0 0)) = if 20 < 4 * ((b.read 0).toNat % 16) then 1 else 0 := by
  rw [b.getD_bytes_zero long (by decide), hlenOf_eq, hasOptionsFlag, ofBool_eq_ite]
  simp only [decide_eq_true_eq, gt_iff_lt]

theorem csumOkFlag_eq_ite (w : Nat) (h : List Byte) :
    csumOkFlag w h = if (csum16 w (zeroChecksum h)).toNat = (checksumOf h).toNat then 1 else 0 := by
  rw [csumOkFlag, ofBool_eq_ite]
  simp only [beq_iff_eq, BitVec.toNat_inj]

theorem csumOkFlag_bytes (w : Nat) (b : Buffer) {n : Nat} (long : 20 ≤ n) :
    csumOkFlag w (b.bytes 0 n) =
      if (csum16 w (zeroChecksum (b.bytes 0 n))).toNat = (b.read 10).toNat * 256 + (b.read 11).toNat then 1
      else 0 := by
  rw [csumOkFlag_eq_ite, checksumOf_bytes b long]

theorem StructurallyValid.hlen_ge {b : Buffer} {L : Nat} (valid : StructurallyValid b L) :
    20 ≤ 4 * ((b.read 0).toNat % 16) := by
  obtain ⟨-, -, hlen, -⟩ := valid
  exact hlen

/-- Settles O29: `execParse_next_iff` tells the two completions apart; each field is the bytes it is cut from. -/
theorem parseDeliversTheFactsAndTheView : Obligations.ParseDeliversTheFactsAndTheView := by
  intro s o input
  refine ⟨pack_op 4 o, ?_⟩
  by_cases valid : StructurallyValid s.inBuf o.len.toNat
  · have long := valid.hlen_ge
    refine ⟨_, execParse_next_iff.2 ⟨input, .inr ⟨valid, rfl⟩⟩, rfl, rfl, rfl, .refl _, .refl _, .refl _,
      ⟨rfl, rfl, rfl, rfl⟩, fun invalid => absurd valid invalid, fun _ => ⟨rfl, rfl, ?_⟩⟩
    exact ⟨hasOptionsFlag_bytes _ long, csumOkFlag_bytes _ _ long, versionOf_bytes _ long, ihlOf_bytes _ long,
      Buffer.getD_bytes_zero _ long (by decide), be16_bytes _ long (by decide), be16_bytes _ long (by decide),
      rf_bytes _ long, df_bytes _ long, mf_bytes _ long, fragOff_bytes _ long,
      Buffer.getD_bytes_zero _ long (by decide), Buffer.getD_bytes_zero _ long (by decide), checksumOf_bytes _ long,
      be32_bytes _ long (by decide), be32_bytes _ long (by decide)⟩
  · exact ⟨_, execParse_next_iff.2 ⟨input, .inl ⟨valid, rfl⟩⟩, rfl, rfl, rfl, .refl _, .refl _, .refl _,
      ⟨rfl, rfl, rfl, rfl⟩, fun _ => ⟨rfl, rfl⟩, fun valid' => absurd valid' valid⟩

/-! ### The two tests of a received checksum (R115, C4) -/

theorem csumOkFlag_eq_one_iff {w : Nat} {h : List Byte} :
    csumOkFlag w h = 1 ↔ (csum16 w (zeroChecksum h)).toNat = (checksumOf h).toNat := by
  rw [csumOkFlag_eq_ite]
  split_ifs with equal
  · exact iff_of_true rfl equal
  · exact iff_of_false (by decide) equal

/-- The checksum field contributes its value to the total. -/
theorem wordTotal_zeroChecksum {h : List Byte} (len : 12 ≤ h.length) :
    wordTotal h = wordTotal (zeroChecksum h) + (checksumOf h).toNat := by
  have high := wordTotal_set h 10 0 (by omega)
  have low := wordTotal_set (h.set 10 0) 11 0 (by rw [List.length_set]; omega)
  have keeps : (h.set 10 0).getD 11 0 = h.getD 11 0 := by simp [List.getD_eq_getElem?_getD]
  have zero : (0 : Byte).toNat = 0 := rfl
  rw [zero, if_pos (by decide)] at high
  rw [zero, keeps, if_neg (by decide)] at low
  have received : (checksumOf h).toNat = (h.getD 10 0).toNat * 256 + (h.getD 11 0).toNat := be16_toNat h 10
  rw [zeroChecksum]
  omega

theorem sum16_eq_ones_iff (p : Config.Params) {b : List Byte} (len : b.length ≤ 65535) :
    sum16 p.accW b = 0xFFFF ↔ 0 < wordTotal b ∧ wordTotal b % 65535 = 0 := by
  refine ⟨fun ones => ?_, fun ⟨pos, multiple⟩ => sum16_eq_ones p len pos multiple⟩
  have sum := sum16_toNat_eq_onesResidue p (wordTotal_lt b len)
  rw [ones, show (0xFFFF : Half).toNat = 65535 from rfl] at sum
  have zero := onesResidue_eq_zero_iff (n := wordTotal b)
  have residue := onesResidue_mod (wordTotal b)
  omega

/-- The whole header sums to `0xFFFF` when the received checksum is the recomputation, and in one more case: that a
zero-filled sum of `0xFFFF`, whose checksum is 0, was sent with the other zero of one's-complement arithmetic. -/
theorem sum16_eq_ones_iff_csumOk (p : Config.Params) {h : List Byte} (len : h.length ≤ 65535)
    (header : 12 ≤ h.length) :
    sum16 p.accW h = 0xFFFF ↔
      csumOkFlag p.accW h = 1 ∨ sum16 p.accW (zeroChecksum h) = 0xFFFF ∧ (checksumOf h).toNat = 0xFFFF := by
  have zeroed : (zeroChecksum h).length ≤ 65535 := by rwa [zeroChecksum, List.length_set, List.length_set]
  have sum := sum16_toNat_eq_onesResidue p (wordTotal_lt _ zeroed)
  have zero := onesResidue_eq_zero_iff (n := wordTotal (zeroChecksum h))
  have residue := onesResidue_mod (wordTotal (zeroChecksum h))
  have sumLt := (sum16 p.accW (zeroChecksum h)).isLt
  have receivedLt := (checksumOf h).isLt
  rw [sum16_eq_ones_iff p len, wordTotal_zeroChecksum header, csumOkFlag_eq_one_iff, csum16_toNat, ← BitVec.toNat_inj,
    show (0xFFFF : Half).toNat = 65535 from rfl]
  rw [← sum] at zero residue
  omega

/-- Settles O30: the two tests differ by `sum16_eq_ones_iff_csumOk`'s second case. -/
theorem checksumTestsAgreeButOnOneFamily : Obligations.ChecksumTestsAgreeButOnOneFamily := by
  intro s t o valid run
  obtain ⟨-, ⟨invalid, -⟩ | ⟨-, rfl⟩⟩ := execParse_next_iff.1 run
  · exact absurd valid invalid
  intro h z received
  have long : 20 ≤ 4 * ((s.inBuf.read 0).toNat % 16) := valid.hlen_ge
  have len : h.length = 4 * ((s.inBuf.read 0).toNat % 16) := Buffer.length_bytes _ _ _
  have checksum : (checksumOf h).toNat = received := checksumOf_bytes s.inBuf long
  have first : csumOkFlag s.params.accW h = 1 ↔ (csum16 s.params.accW z).toNat = received := by
    rw [csumOkFlag_eq_one_iff, checksum]; rfl
  have second : sum16 s.params.accW h = 0xFFFF ↔
      csumOkFlag s.params.accW h = 1 ∨ sum16 s.params.accW z = 0xFFFF ∧ received = 0xFFFF := by
    rw [sum16_eq_ones_iff_csumOk s.params (by omega) (by omega), checksum]; rfl
  refine ⟨first, fun ne => ?_, fun ones => ?_⟩
  · rw [second, or_iff_left fun other => ne other.1]; rfl
  · have sentZero : csumOkFlag s.params.accW h = 1 ↔ received = 0 := by
      rw [first, csum16_of_sum16_eq_ones ones]; exact eq_comm
    exact ⟨sentZero, by rw [second, sentZero, and_iff_right ones]⟩

/-! ### One flipped bit (R119) -/

/-- `b` with bit `k` of byte `i` flipped. -/
def Buffer.flipBit (b : Buffer) (i k : Nat) : Buffer := b.write i [b.read i ^^^ BitVec.twoPow 8 k]

theorem Buffer.flipBit_read_same (b : Buffer) (i k : Nat) :
    (b.flipBit i k).read i = b.read i ^^^ BitVec.twoPow 8 k := by
  rw [flipBit, Buffer.read_write, if_pos ⟨le_rfl, by simp⟩, Nat.sub_self]
  rfl

theorem Buffer.flipBit_read_ne (b : Buffer) {i a : Nat} (k : Nat) (ne : a ≠ i) :
    (b.flipBit i k).read a = b.read a := by
  rw [flipBit, Buffer.read_write, if_neg (by rw [List.length_singleton]; omega)]

theorem Buffer.flipBit_bytes (b : Buffer) {i n : Nat} (k : Nat) (hi : i < n) :
    (b.flipBit i k).bytes 0 n = (b.bytes 0 n).set i ((b.bytes 0 n).getD i 0 ^^^ BitVec.twoPow 8 k) := by
  apply Buffer.bytes_eq_of_read (by simp)
  intro a ha
  rw [b.getD_bytes 0 n i hi, Nat.zero_add]
  rcases eq_or_ne a i with rfl | ne
  · rw [Buffer.flipBit_read_same]; simp [ha]
  · rw [b.flipBit_read_ne k ne]; simp [List.getD_eq_getElem?_getD, ne.symm, ha]

/-- R112 looks at no byte but 0, 2 and 3. -/
theorem structurallyValid_flipBit {b : Buffer} {i L : Nat} (k : Nat) (other : i ≠ 0 ∧ i ≠ 2 ∧ i ≠ 3) :
    StructurallyValid (b.flipBit i k) L ↔ StructurallyValid b L := by
  obtain ⟨ne0, ne2, ne3⟩ := other
  rw [StructurallyValid, StructurallyValid, b.flipBit_read_ne k ne0.symm, b.flipBit_read_ne k ne2.symm,
    b.flipBit_read_ne k ne3.symm]

/-- A flip outside the IHL nibble leaves the declared header length alone. -/
theorem ihl_flipBit (b : Buffer) {i k : Nat} (hk : k < 8) (outside : ¬ (i = 0 ∧ k < 4)) :
    ((b.flipBit i k).read 0).toNat % 16 = (b.read 0).toNat % 16 := by
  rcases eq_or_ne 0 i with rfl | ne
  · have weight : 16 ∣ 2 ^ k := Nat.pow_dvd_pow 2 (m := 4) (by omega)
    have flip := toNat_xor_twoPow (b.read 0) hk
    rw [Buffer.flipBit_read_same]
    omega
  · rw [b.flipBit_read_ne k ne]

/-- In 20 bytes a valid header is 20 bytes long. -/
theorem StructurallyValid.hlen_of_twenty {b : Buffer} (valid : StructurallyValid b 20) :
    4 * ((b.read 0).toNat % 16) = 20 := by
  obtain ⟨-, -, hmin, hmax, -⟩ := valid
  omega

/-- The damaged header, if still valid, is as long as the good one. -/
theorem hlen_flipBit {b : Buffer} {i k L : Nat} (hk : k < 8) (place : ¬ (i = 0 ∧ k < 4) ∨ L = 20)
    (valid : StructurallyValid b L) (valid' : StructurallyValid (b.flipBit i k) L) :
    4 * (((b.flipBit i k).read 0).toNat % 16) = 4 * ((b.read 0).toNat % 16) := by
  obtain outside | rfl := place
  · rw [ihl_flipBit b hk outside]
  · rw [valid'.hlen_of_twenty, valid.hlen_of_twenty]

/-- A header that passes the checksum test does not pass it with one bit flipped: both would sum to `0xFFFF`. -/
theorem csumOkFlag_flip (p : Config.Params) {h : List Byte} {i k : Nat} (len : h.length ≤ 65535)
    (header : 12 ≤ h.length) (hi : i < h.length) (hk : k < 8) (good : csumOkFlag p.accW h = 1) :
    csumOkFlag p.accW (h.set i (h.getD i 0 ^^^ BitVec.twoPow 8 k)) = 0 := by
  refine (BitVec.eq_zero_or_eq_one _).resolve_right fun good' => ?_
  have ones := (sum16_eq_ones_iff_csumOk p len header).2 (.inl good)
  have ones' := (sum16_eq_ones_iff_csumOk p (by rwa [List.length_set]) (by rwa [List.length_set])).2 (.inl good')
  exact oneBitChangesTheSum p h i k len hi hk (ones'.trans ones.symm)

/-- Settles O31: the damaged buffer is invalid, or its header is the good one with one bit flipped. -/
theorem oneFlippedBitIsNoticed : Obligations.OneFlippedBitIsNoticed := by
  intro s t o i k run valid good hi hk place
  obtain ⟨input, ⟨-, rfl⟩ | ⟨sound, rfl⟩⟩ := execParse_next_iff.1 run
  · exact absurd valid (by decide : (0 : BitVec 1) ≠ 1)
  by_cases sound' : StructurallyValid (s.inBuf.flipBit i k) o.len.toNat
  · refine ⟨_, execParse_next_iff.2 ⟨input, .inr ⟨sound', rfl⟩⟩, .inr ⟨rfl, ?_⟩⟩
    have long := sound.hlen_ge
    have len : (s.inBuf.bytes 0 (4 * ((s.inBuf.read 0).toNat % 16))).length = 4 * ((s.inBuf.read 0).toNat % 16) :=
      Buffer.length_bytes _ _ _
    show csumOkFlag s.params.accW
      ((s.inBuf.flipBit i k).bytes 0 (4 * (((s.inBuf.flipBit i k).read 0).toNat % 16))) = 0
    rw [hlen_flipBit hk place sound sound', Buffer.flipBit_bytes _ _ hi]
    exact csumOkFlag_flip s.params (by omega) (by omega) (by rwa [len]) hk good
  · refine ⟨_, execParse_next_iff.2 ⟨input, .inl ⟨sound', rfl⟩⟩, .inl ⟨rfl, ?_⟩⟩
    by_contra other
    exact sound' ((structurallyValid_flipBit k (by tauto)).2 sound)

end Sys2Proof.Machine
end

section
/-! PROOFS. The Fragmenter, step by step (`43_fragmenter.md`): the MTU floor and the capacity, the rounds, the SINK's
answers, and what the invariant says of a sink call. -/

namespace Sys2Proof.Machine

/-! ### A SINK that does not answer (R133) -/

theorem step_of_silent_sink {s : State} (line : s.resetIn = false) (phase : s.phase = .sinkWait) (sink : s.sink = []) :
    step s = .next s := by
  rw [step_of_sinkWait line phase]
  exact stepSinkWait_next.2 (.inl ⟨sink, rfl⟩)

/-- Settles O9: a step without an answer and without a reset is no change at all. -/
theorem silentSinkHangsTheBlock : Obligations.SilentSinkHangsTheBlock := by
  refine ⟨fun s k phase sink line => ?_, fun s t phase h moved => ?_, fun s _ line => ?_⟩
  · induction k with
    | zero => rfl
    | succ k ih => rw [run_succ_of_next (step_of_silent_sink line phase sink), ih]
  · by_contra! quiet
    obtain ⟨line, sink⟩ := quiet
    rw [step_of_silent_sink (Bool.eq_false_iff.2 line) phase sink] at h
    exact moved (Host.Outcome.next.inj h).symm
  · obtain ⟨t, h, idle, noResult, -⟩ := resetAbandonsTheCommand s line
    exact ⟨t, h, idle, noResult⟩

/-! ### The MTU floor and the capacity (R126, R127) -/

/-- Every floor R6 allows is at least 28. -/
theorem le_of_mtuMin_le {p : Config.Params} {mtu : Nat} (h : p.mtuMin ≤ mtu) : 28 ≤ mtu :=
  le_trans (Nat.le_add_right _ _) h

theorem capacity_eq_zero_iff {m : Half} (h : 20 ≤ m.toNat) : capacity m = 0 ↔ m.toNat < 28 := by
  have toNat : (capacity m).toNat = 8 * ((m.toNat - 20) / 8) := capacity_toNat m h
  have zero : (0 : Half).toNat = 0 := rfl
  rw [← BitVec.toNat_inj, toNat, zero]
  omega

/-- Settles O37: all of it is arithmetic on `8 * ((mtu - 20) / 8)`. -/
theorem capacityIsLargestMultipleOfEight : Obligations.CapacityIsLargestMultipleOfEight := by
  refine ⟨fun mtu h => ?_, fun p mtu h => ?_, by decide, by decide, by decide, by decide, by decide⟩
  · rw [capacity_toNat mtu h]
    exact ⟨rfl, rfl, by omega, fun m hm => by omega⟩
  · have floor := le_of_mtuMin_le h
    have := mtu.isLt
    rw [capacity_toNat mtu (by omega)]
    omega

theorem execFrag_of_mtu_lt {o : Operands} {s : State} (input : o.len.toNat ≤ s.inBuf.size)
    (mtu : o.aux.toNat < s.params.mtuMin) :
    exec (.frag o) s = .next (deliverValue stMtuTooSmall 0 (accept { o with op := 5 } s)) :=
  execFrag_next.2 ⟨input, by rw [if_pos mtu]⟩

/-- Settles O36: the failing launch is a completion that looks at no buffer but for the length of IN. -/
theorem fragFailsBelowTheMtuFloor : Obligations.FragFailsBelowTheMtuFloor := by
  refine ⟨rfl, fun m => capacity_eq_zero_iff, fun s o input mtu => ⟨_, execFrag_of_mtu_lt input mtu, ?_⟩⟩
  exact ⟨completed_deliverValue _ _ _, rfl, rfl, .refl _, .refl _, .refl _, ⟨rfl, rfl, rfl, rfl⟩,
    fun bi bf size => execFrag_of_mtu_lt (s := { s with inBuf := bi, fb := bf }) (size ▸ input) mtu⟩

/-! ### The fragments of a payload (R128, R130, R135) -/

/-- The slice of the payload that fragment number `i` of the command `c` carries. -/
def sliceAt (c : Cmd) (b : Buffer) (i : Nat) : List Byte :=
  b.bytes (i * (capacity c.aux).toNat) (sliceLen (capacity c.aux).toNat (i * (capacity c.aux).toNat) c.len.toNat)

/-- Fragment number `i`: its header, then its slice. -/
def fragmentAt (p : Config.Params) (c : Cmd) (b : Buffer) (i : Nat) : List Byte :=
  (fragHeader p c (i * (capacity c.aux).toNat)
    (sliceLen (capacity c.aux).toNat (i * (capacity c.aux).toNat) c.len.toNat)).toList ++ sliceAt c b i

theorem take_fragmentAt (p : Config.Params) (c : Cmd) (b : Buffer) (i : Nat) :
    (fragmentAt p c b i).take 20 = (fragHeader p c (i * (capacity c.aux).toNat)
      (sliceLen (capacity c.aux).toNat (i * (capacity c.aux).toNat) c.len.toNat)).toList :=
  List.take_left' Vector.length_toList

theorem drop_fragmentAt (p : Config.Params) (c : Cmd) (b : Buffer) (i : Nat) :
    (fragmentAt p c b i).drop 20 = sliceAt c b i :=
  List.drop_left' Vector.length_toList

/-- More payload follows the slice exactly if the next slice is not empty. -/
theorem off_add_sliceLen_lt_iff (cap len i : Nat) :
    i * cap + sliceLen cap (i * cap) len < len ↔ (i + 1) * cap < len := by
  rw [Nat.succ_mul, sliceLen]
  omega

theorem isFragment_fragmentAt (p : Config.Params) {c : Cmd} (b : Buffer) {i : Nat} (mtu : 28 ≤ c.aux.toNat)
    (left : i * (capacity c.aux).toNat < c.len.toNat) : IsFragment p c b i (fragmentAt p c b i) := by
  have cap : (capacity c.aux).toNat = 8 * ((c.aux.toNat - 20) / 8) := capacity_toNat _ (by omega)
  have aux := c.aux.isLt
  have len := c.len.isLt
  have n : sliceLen (capacity c.aux).toNat (i * (capacity c.aux).toNat) c.len.toNat ≤ 65515 := by
    unfold sliceLen; omega
  have fields := fragHeader_fields p c (lt_trans left len) n
  simp only [off_add_sliceLen_lt_iff] at fields
  constructor
  · rw [take_fragmentAt, ← cap]; exact fields
  · rw [drop_fragmentAt, ← cap]; rfl

/-- The number of fragments as the count of slices that begin inside the payload (R128). -/
theorem lt_fragCount_iff {mtu : Half} (h : 28 ≤ mtu.toNat) {i len : Nat} :
    i < fragCount len mtu.toNat ↔ i * (capacity mtu).toNat < len := by
  have cap : (capacity mtu).toNat = 8 * ((mtu.toNat - 20) / 8) := capacity_toNat _ (by omega)
  have pos : 0 < 8 * ((mtu.toNat - 20) / 8) := by omega
  rw [cap, fragCount, ← Nat.succ_le_iff, Nat.le_div_iff_mul_le pos, Nat.succ_mul]
  omega

theorem le_fragCount_mul {mtu : Half} (h : 28 ≤ mtu.toNat) (len : Nat) :
    len ≤ fragCount len mtu.toNat * (capacity mtu).toNat :=
  Nat.le_of_not_lt fun left => Nat.lt_irrefl _ ((lt_fragCount_iff h).2 left)

/-! ### A sink call under the invariant (R131, R136, R137) -/

section
variable {s : State} (call : InSinkCall s)
include call

theorem InSinkCall.n_le_cap : s.work.n.toNat ≤ s.work.cap.toNat := by
  rw [call.slice]; exact Nat.min_le_left _ _

theorem InSinkCall.off_add_n_le : s.work.off.toNat + s.work.n.toNat ≤ s.cmd.len.toNat := by
  have left := call.left
  rw [call.slice, sliceLen]
  omega

theorem InSinkCall.eight_dvd_cap : 8 ∣ s.work.cap.toNat := by
  have mtu := le_of_mtuMin_le call.mtu
  rw [call.cap, capacity_toNat _ (by omega)]
  exact Nat.dvd_mul_right _ _

theorem InSinkCall.cnt_le : s.work.cnt.toNat ≤ 8192 := by
  have before := count_lt_of_mul_lt call.cap_bounds.1 (call.off ▸ call.left)
  omega

/-- FB holds fragment number `cnt - 1`, counted from 0. -/
theorem InSinkCall.handed_eq :
    s.fb.bytes 0 s.work.fbLen.toNat = fragmentAt s.params s.cmd s.inBuf (s.work.cnt.toNat - 1) := by
  rw [call.handed, fragmentAt, sliceAt, ← call.cap, ← call.off, ← call.slice]

theorem InSinkCall.sinkCall_eq (phase : s.phase = .sinkWait) :
    s.sinkCall = some (fragmentAt s.params s.cmd s.inBuf (s.work.cnt.toNat - 1)) := by
  rw [← call.handed_eq, State.sinkCall, phase]

theorem InSinkCall.exists_fragment (phase : s.phase = .sinkWait) :
    ∃ f, s.sinkCall = some f ∧ s.work.fbLen.toNat = f.length
      ∧ IsFragment s.params s.cmd s.inBuf (s.work.cnt.toNat - 1) f := by
  have left : (s.work.cnt.toNat - 1) * (capacity s.cmd.aux).toNat < s.cmd.len.toNat := by
    rw [← call.cap, ← call.off]; exact call.left
  exact ⟨_, call.sinkCall_eq phase, by rw [← call.handed_eq, Buffer.length_bytes],
    isFragment_fragmentAt s.params s.inBuf (le_of_mtuMin_le call.mtu) left⟩

end

/-- Settles O41: `off` counts whole capacities, and a slice shorter than one ends the payload. -/
theorem splitsAreAligned : Obligations.SplitsAreAligned := by
  intro s inv phase
  have call := inv.call phase
  have aligned := call.eight_dvd_off
  refine ⟨call.off ▸ Nat.dvd_mul_left _ _, call.eight_dvd_cap, Nat.mod_eq_zero_of_dvd aligned,
    Nat.mul_div_cancel' aligned, fun more => ?_⟩
  have full : s.work.n = s.work.cap := by
    have slice : s.work.n.toNat = min s.work.cap.toNat (s.cmd.len.toNat - s.work.off.toNat) := call.slice
    exact BitVec.eq_of_toNat_eq (by omega)
  exact ⟨full, full ▸ Nat.mod_eq_zero_of_dvd call.eight_dvd_cap⟩

/-- Settles O42: the slice lies in a payload of 16-bit length, and a capacity and a header fit the MTU. -/
theorem fragmentFieldsNeverOverflow : Obligations.FragmentFieldsNeverOverflow := by
  intro s inv phase
  have call := inv.call phase
  have mtu := le_of_mtuMin_le call.mtu
  have cap : s.work.cap.toNat = 8 * ((s.cmd.aux.toNat - 20) / 8) := by rw [call.cap, capacity_toNat _ (by omega)]
  have aligned := call.eight_dvd_off
  have left := call.left
  have len := s.cmd.len.isLt
  have n := call.n_le_cap
  have n_le := call.n_le
  exact ⟨call.n_pos, by omega, by omega, by omega, by omega, call.cnt_le, call.off_add_n_le⟩

/-! ### The rounds (R130) -/

section
variable {s : State}

theorem FragRunning.fragNext_of_left (h : FragRunning s) (fbSize : 65532 ≤ s.fb.size)
    (left : s.work.off.toNat < s.cmd.len.toNat) : fragNext s = .next (prepared s) := by
  obtain ⟨t, round⟩ := h.exists_fragNext fbSize
  obtain ⟨-, ⟨-, -, rfl⟩ | ⟨allSent, -⟩⟩ := fragNext_next.1 round
  · exact round
  · exact absurd left (Nat.not_lt.2 allSent)

theorem FragRunning.fragNext_of_allSent (h : FragRunning s) (allSent : s.cmd.len.toNat ≤ s.work.off.toNat) :
    fragNext s = .next (deliverValue stOk s.work.cnt s) :=
  fragNext_next.2 ⟨h.input, .inr ⟨allSent, rfl⟩⟩

theorem FragRunning.prepared_cnt_toNat (h : FragRunning s)
    (hoff : s.work.off.toNat = s.work.cnt.toNat * s.work.cap.toNat) (left : s.work.off.toNat < s.cmd.len.toNat) :
    (prepared s).work.cnt.toNat = s.work.cnt.toNat + 1 := by
  have before := count_lt_of_mul_lt h.cap_bounds.1 (hoff ▸ left)
  have one : (1 : Half).toNat = 1 := rfl
  rw [prepared_cnt, BitVec.toNat_add, one]
  omega

theorem AtLoopHead.off_of_left (h : AtLoopHead s) (left : s.work.off.toNat < s.cmd.len.toNat) :
    s.work.off.toNat = s.work.cnt.toNat * s.work.cap.toNat := by
  have off := h.off
  omega

/-- When nothing is left the calls made are all the fragments (R134): the last slice began inside the payload and the
next one would not. -/
theorem AtLoopHead.cnt_of_allSent (h : AtLoopHead s) (allSent : s.cmd.len.toNat ≤ s.work.off.toNat) :
    s.work.cnt.toNat = fragCount s.cmd.len.toNat s.cmd.aux.toNat := by
  have off := h.off
  have counted := h.counted
  have lastBegan := (lt_fragCount_iff (le_of_mtuMin_le h.mtu)).2 (h.cap ▸ h.last)
  have noneFollows : ¬ s.work.cnt.toNat < fragCount s.cmd.len.toNat s.cmd.aux.toNat := by
    rw [lt_fragCount_iff (le_of_mtuMin_le h.mtu), ← h.cap]
    omega
  omega

end

theorem execFrag_of_mtu_ge {o : Operands} {s : State} (input : o.len.toNat ≤ s.inBuf.size)
    (mtu : s.params.mtuMin ≤ o.aux.toNat) : exec (.frag o) s = fragNext (fragStarted o s) :=
  (needIn_of_le _ input).trans (if_neg (Nat.not_lt.2 mtu))

/-- Settles O38: the launch is the loop's head with `off = cnt = 0`. -/
theorem fragHandsOverTheFirstFragment : Obligations.FragHandsOverTheFirstFragment := by
  intro s o input fbSize mtu
  have running := fragRunning_fragStarted input mtu
  rw [execFrag_of_mtu_ge input mtu]
  rcases Nat.eq_zero_or_pos o.len.toNat with empty | left
  · exact ⟨_, running.fragNext_of_allSent (Nat.le_of_eq empty), rfl, .refl _, .refl _, ⟨rfl, rfl, rfl, rfl⟩,
      fun _ => ⟨completed_deliverValue _ _ _, rfl, .refl _⟩, fun nonempty => absurd empty nonempty⟩
  · have call : InSinkCall (prepared (fragStarted o s)) := running.inSinkCall_prepared (Nat.zero_mul _).symm left
    obtain ⟨f, handed, length, isFragment⟩ := call.exists_fragment rfl
    refine ⟨_, running.fragNext_of_left fbSize left, rfl, .refl _, .refl _, ⟨rfl, rfl, rfl, rfl⟩,
      fun empty => absurd empty (Nat.ne_of_gt left), fun _ => ⟨rfl, rfl, rfl, rfl, f, handed, length, isFragment, ?_⟩⟩
    exact fun a beyond => running.prepared_read_of_fbLen_le (length ▸ beyond)

/-- Settles O39: the round of the loop's head, with `cnt` calls counted by the invariant. -/
theorem fragGoesOnUntilThePayloadEnds : Obligations.FragGoesOnUntilThePayloadEnds := by
  intro s inv phase line
  have head := inv.run phase
  rw [step_of_run line phase]
  rcases Nat.lt_or_ge s.work.off.toNat s.cmd.len.toNat with left | allSent
  · have off := head.off_of_left left
    have cnt := head.prepared_cnt_toNat off left
    obtain ⟨f, handed, length, isFragment⟩ := (head.inSinkCall_prepared off left).exists_fragment rfl
    rw [cnt, Nat.add_sub_cancel] at isFragment
    exact ⟨_, head.fragNext_of_left inv.fbSize left, rfl, rfl, ⟨rfl, rfl, rfl, rfl⟩, rfl,
      fun _ => ⟨rfl, head.busy, cnt, f, handed, length, isFragment⟩, fun allSent => absurd left (Nat.not_lt.2 allSent)⟩
  · exact ⟨_, head.fragNext_of_allSent allSent, rfl, rfl, ⟨rfl, rfl, rfl, rfl⟩, rfl,
      fun left => absurd left (Nat.not_lt.2 allSent),
      fun _ => ⟨completed_deliverValue _ _ _, rfl, head.cnt_of_allSent allSent⟩⟩

/-! ### The SINK's answers (R131, R138) -/

theorem step_of_answer_zero {s : State} {rest : List (BitVec 1)} (line : s.resetIn = false)
    (phase : s.phase = .sinkWait) (sink : s.sink = 0 :: rest) : step s = .next (wentOn { s with sink := rest }) := by
  rw [step_of_sinkWait line phase]
  exact stepSinkWait_next.2 (.inr ⟨0, rest, sink, rfl⟩)

theorem step_of_answer_one {s : State} {rest : List (BitVec 1)} (line : s.resetIn = false)
    (phase : s.phase = .sinkWait) (sink : s.sink = 1 :: rest) :
    step s = .next (deliverValue stSinkAborted s.work.cnt { s with sink := rest }) := by
  rw [step_of_sinkWait line phase]
  exact stepSinkWait_next.2 (.inr ⟨1, rest, sink, rfl⟩)

/-- Settles O40, by the two answers a bit can be. -/
theorem sinkAnswerDecidesGoOrAbort : Obligations.SinkAnswerDecidesGoOrAbort := by
  intro s rc rest inv phase line sink
  have call := inv.call phase
  obtain rfl | rfl := BitVec.eq_zero_or_eq_one rc
  · have moved : (wentOn { s with sink := rest }).work.off.toNat = s.work.off.toNat + s.work.n.toNat := call.off_wentOn
    exact ⟨_, step_of_answer_zero line phase sink, rfl, rfl, rfl, rfl, rfl,
      fun _ => ⟨rfl, call.busy, rfl, rfl, moved, moved ▸ call.off_add_n_le⟩, fun refused => absurd rfl refused⟩
  · exact ⟨_, step_of_answer_one line phase sink, rfl, rfl, rfl, rfl, rfl,
      fun accepted => absurd accepted (by decide), fun _ => ⟨completed_deliverValue _ _ _, rfl⟩⟩

/-- A call that stays pending stays as it is. -/
theorem eq_of_sinkWait_step_sinkWait {s t : State} (phase : s.phase = .sinkWait) (h : step s = .next t)
    (pending : t.phase = .sinkWait) : t = s := by
  cases step_stepCase h with
  | noAnswer => rfl
  | reset | answeredZero | answeredOne => cases pending
  | noRequest _ phase' | fillIn _ phase' | provideOut _ phase' | launch _ phase' | illegal _ phase' | nextCall _ phase'
  | finished _ phase' => cases phase.symm.trans phase'

/-- A call is followed by the next only after the answer 0. -/
theorem eq_wentOn_of_sinkWait_step_run {s t : State} (phase : s.phase = .sinkWait) (line : s.resetIn = false)
    (h : step s = .next t) (goesOn : t.phase = .run) : ∃ rest, s.sink = 0 :: rest ∧ t = wentOn { s with sink := rest } := by
  rw [step_of_sinkWait line phase] at h
  obtain ⟨-, rfl⟩ | ⟨rc, rest, sink, rfl⟩ := stepSinkWait_next.1 h
  · cases phase.symm.trans goesOn
  · obtain rfl | rfl := BitVec.eq_zero_or_eq_one rc
    · exact ⟨rest, sink, rfl⟩
    · cases goesOn

/-- Settles O43: an answer moves `off` past the slice, and the round after it keeps `off` and counts one call. -/
theorem fragmentsComeInIncreasingOrder : Obligations.FragmentsComeInIncreasingOrder := by
  refine ⟨fun s t phase h pending => by rw [eq_of_sinkWait_step_sinkWait phase h pending], ?_⟩
  intro s t u inv phase line h goesOn next calls
  obtain ⟨moved, higher⟩ := inv.off_after_call phase line h goesOn
  have head : AtLoopHead t := (stepKeepsTheInvariant s t inv h).run goesOn
  obtain ⟨rest, sink, rfl⟩ := eq_wentOn_of_sinkWait_step_run phase line h goesOn
  rw [step_of_run (s := wentOn { s with sink := rest }) line goesOn] at next
  obtain ⟨-, ⟨left, -, rfl⟩ | ⟨-, rfl⟩⟩ := fragNext_next.1 next
  · exact ⟨⟨rest, sink⟩, moved, higher, head.prepared_cnt_toNat (head.off_of_left left) left⟩
  · cases calls

end Sys2Proof.Machine
end

section
/-! PROOFS. Whole runs of FRAG (`43_fragmenter.md`, R128, R129, R132, R134): the fragments one run hands over, from the
launch through accepted calls to its completion or to the refused call. -/

namespace Sys2Proof.Machine

/-! ### Several steps, the fragments they hand over, and the same steps on another input buffer -/

/-- The fragment handed over by a step from `s` to `t`, as `handedOver` counts it. -/
def newCall (s t : State) : List (List Byte) := if s.phase = .sinkWait then [] else t.sinkCall.toList

theorem handedOver_succ_of_next {k : Nat} {s t : State} (h : step s = .next t) :
    handedOver (k + 1) s = newCall s t ++ handedOver k t := by
  simp only [handedOver, h, newCall]

/-- The step from `s` to `t` does not depend on IN among the buffers of which `B` holds. -/
def SameStep (B : Buffer → Prop) (s t : State) : Prop :=
  ∀ b, B b → step { s with inBuf := b } = .next { t with inBuf := b }

/-- Steps lead from `s` to `t` and hand over the fragments `fs`; with a buffer of which `B` holds in place of IN they
do the same. -/
inductive HandsOver (B : Buffer → Prop) : State → List (List Byte) → State → Prop
  | done (s : State) : HandsOver B s [] s
  | step {s t u : State} {fs : List (List Byte)} (first : step s = .next t) (others : SameStep B s t)
    (later : HandsOver B t fs u) : HandsOver B s (newCall s t ++ fs) u

section
variable {B : Buffer → Prop} {s t : State} {fs : List (List Byte)}

theorem HandsOver.single (first : Machine.step s = .next t) (others : SameStep B s t) :
    HandsOver B s (newCall s t) t := by
  simpa using HandsOver.step first others (.done t)

theorem HandsOver.trans {u : State} {gs : List (List Byte)} (h : HandsOver B s fs t) (later : HandsOver B t gs u) :
    HandsOver B s (fs ++ gs) u := by
  induction h with
  | done s => exact later
  | step first others _ ih => rw [List.append_assoc]; exact .step first others (ih later)

theorem HandsOver.exists_run (h : HandsOver B s fs t) :
    ∃ k, Host.Core.run Sys2Proof.core k s = .next t ∧ handedOver k s = fs
      ∧ ∀ b, B b → Host.Core.run Sys2Proof.core k { s with inBuf := b } = .next { t with inBuf := b } := by
  induction h with
  | done s => exact ⟨0, rfl, rfl, fun _ _ => rfl⟩
  | step first others _ ih =>
    obtain ⟨k, run, handed, runs⟩ := ih
    exact ⟨k + 1, by rw [run_succ_of_next first, run], by rw [handedOver_succ_of_next first, handed],
      fun b hb => by rw [run_succ_of_next (others b hb), runs b hb]⟩

end

/-- `b'` has the length of `b` and agrees with it on the first `n` bytes. -/
def SameBelow (n : Nat) (b b' : Buffer) : Prop := b'.size = b.size ∧ ∀ a, a < n → b'.read a = b.read a

/-- Every buffer of which `B` holds agrees with `b` on the first `n` bytes. -/
def AgreeBelow (B : Buffer → Prop) (n : Nat) (b : Buffer) : Prop := ∀ b', B b' → SameBelow n b b'

theorem agreeBelow_self (n : Nat) (b : Buffer) : AgreeBelow (· = b) n b := by
  rintro _ rfl
  exact ⟨rfl, fun _ _ => rfl⟩

theorem AgreeBelow.mono {B : Buffer → Prop} {m n : Nat} {b : Buffer} (h : AgreeBelow B n b) (le : m ≤ n) :
    AgreeBelow B m b :=
  fun b' hb => ⟨(h b' hb).1, fun a ha => (h b' hb).2 a (lt_of_lt_of_le ha le)⟩

/-- A round looks at no byte from the end of its slice on. -/
theorem AgreeBelow.sameRound {B : Buffer → Prop} {n : Nat} {s : State} (h : AgreeBelow B n s.inBuf)
    (slice : min (s.work.off.toNat + s.work.cap.toNat) s.cmd.len.toNat ≤ n) (b : Buffer) (hb : B b) :
    SameRound s { s with inBuf := b } :=
  ⟨rfl, rfl, rfl, rfl, rfl, (h b hb).1, rfl, fun a _ hcap hlen => (h b hb).2 a (by omega)⟩

/-! ### A round of the loop -/

/-- A step that comes to the loop's head in `t` hands over what the round from there hands over. -/
theorem handsOver_round {B : Buffer → Prop} {s t u : State} (noCall : s.phase ≠ .sinkWait)
    (first : step s = fragNext t) (others : ∀ b, B b → step { s with inBuf := b } = fragNext { t with inBuf := b })
    (same : ∀ b, B b → SameRound t { t with inBuf := b }) (round : fragNext t = .next u) :
    HandsOver B s u.sinkCall.toList u := by
  have new : newCall s u = u.sinkCall.toList := if_neg noCall
  exact new ▸ HandsOver.single (first.trans round)
    fun b hb => (others b hb).trans ((same b hb).fragNext_inBuf round)

/-- `s` belongs to the run that entered its loop in the state `s₀`: what no later round or answer touches. -/
structure InRun (s₀ s : State) : Prop where
  params : s.params = s₀.params
  cmd : s.cmd = s₀.cmd
  inBuf : s.inBuf = s₀.inBuf
  outBuf : s.outBuf = s₀.outBuf
  req : s.req = s₀.req
  line : s.resetIn = false
  fbSize : 65532 ≤ s.fb.size

/-- Call number `i` of that run is pending. -/
structure PendingCall (s₀ : State) (i : Nat) (s : State) : Prop extends InSinkCall s, InRun s₀ s where
  phase : s.phase = .sinkWait
  cnt : s.work.cnt.toNat = i

theorem PendingCall.sinkCall_eq {s₀ s : State} {i : Nat} (call : PendingCall s₀ i s) :
    s.sinkCall = some (fragmentAt s₀.params s₀.cmd s₀.inBuf (i - 1)) := by
  rw [call.toInSinkCall.sinkCall_eq call.phase, call.params, call.cmd, call.inBuf, call.cnt]

theorem FragRunning.pendingCall_prepared {s₀ t : State} (h : FragRunning t) (inRun : InRun s₀ t)
    (hoff : t.work.off.toNat = t.work.cnt.toNat * t.work.cap.toNat) (left : t.work.off.toNat < t.cmd.len.toNat) :
    PendingCall s₀ (t.work.cnt.toNat + 1) (prepared t) :=
  { h.inSinkCall_prepared hoff left, inRun with
    fbSize := inRun.fbSize
    phase := rfl
    cnt := h.prepared_cnt_toNat hoff left }

/-! ### What follows a pending call -/

section
variable {s₀ s : State} {i : Nat} {B : Buffer → Prop} {rest : List (BitVec 1)} (call : PendingCall s₀ i s)
include call

/-- An answer hands over nothing. -/
theorem PendingCall.handsOver_answer {t : State} (h : step s = .next t) : HandsOver B s [] t := by
  have others : SameStep B s t := fun b _ => by
    rw [step_of_sinkWait call.line call.phase] at h
    exact (step_of_sinkWait (s := { s with inBuf := b }) call.line call.phase).trans (stepSinkWait_inBuf b h)
  have nothing : newCall s t = [] := if_pos call.phase
  exact nothing ▸ HandsOver.single h others

/-- The refused call ends the run (R132). -/
theorem PendingCall.refused (sink : s.sink = 1 :: rest) :
    HandsOver B s [] (deliverValue stSinkAborted s.work.cnt { s with sink := rest }) :=
  call.handsOver_answer (step_of_answer_one call.line call.phase sink)

theorem PendingCall.atLoopHead (answers : List (BitVec 1)) : AtLoopHead (wentOn { s with sink := answers }) :=
  InSinkCall.atLoopHead_wentOn (s := { s with sink := answers }) { call.toInSinkCall with }

/-- After the answer 0 to call `i`, `off` is where the slices of `i` fragments end. -/
theorem PendingCall.off_wentOn (answers : List (BitVec 1)) :
    (wentOn { s with sink := answers }).work.off.toNat
      = min (i * (capacity s₀.cmd.aux).toNat) s₀.cmd.len.toNat := by
  have off : (wentOn { s with sink := answers }).work.off.toNat
      = min (s.work.cnt.toNat * s.work.cap.toNat) s.cmd.len.toNat := (call.atLoopHead answers).off
  rw [off, call.cap, call.cmd, call.cnt]

theorem PendingCall.handsOver_wentOn_round {u : State} (sink : s.sink = 0 :: rest)
    (agree : AgreeBelow B ((i + 1) * (capacity s₀.cmd.aux).toNat) s₀.inBuf)
    (round : fragNext (wentOn { s with sink := rest }) = .next u) : HandsOver B s u.sinkCall.toList u := by
  have same (b : Buffer) (hb : B b) :
      SameRound (wentOn { s with sink := rest }) { wentOn { s with sink := rest } with inBuf := b } := by
    have agree' : AgreeBelow B ((i + 1) * (capacity s₀.cmd.aux).toNat) (wentOn { s with sink := rest }).inBuf :=
      call.inBuf.symm ▸ agree
    have cap : (wentOn { s with sink := rest }).work.cap = capacity s₀.cmd.aux := call.cmd ▸ call.cap
    refine agree'.sameRound ?_ b hb
    rw [call.off_wentOn, cap, Nat.succ_mul]
    omega
  exact (call.handsOver_answer (step_of_answer_zero call.line call.phase sink)).trans
    (handsOver_round nofun (step_of_run call.line rfl) (fun _ _ => step_of_run call.line rfl) same round)

/-- An accepted call with payload left is followed by the next one. -/
theorem PendingCall.next_call (sink : s.sink = 0 :: rest) (left : i * (capacity s₀.cmd.aux).toNat < s₀.cmd.len.toNat)
    (agree : AgreeBelow B ((i + 1) * (capacity s₀.cmd.aux).toNat) s₀.inBuf) :
    ∃ u, PendingCall s₀ (i + 1) u ∧ u.sink = rest
      ∧ HandsOver B s [fragmentAt s₀.params s₀.cmd s₀.inBuf i] u := by
  have head := call.atLoopHead rest
  have inRun : InRun s₀ (wentOn { s with sink := rest }) := { call.toInRun with }
  have left' : (wentOn { s with sink := rest }).work.off.toNat < (wentOn { s with sink := rest }).cmd.len.toNat := by
    rw [call.off_wentOn, inRun.cmd]
    omega
  have next : PendingCall s₀ (i + 1) (prepared (wentOn { s with sink := rest })) := by
    have cnt : (wentOn { s with sink := rest }).work.cnt.toNat = i := call.cnt
    exact cnt ▸ head.pendingCall_prepared inRun (head.off_of_left left') left'
  refine ⟨_, next, rfl, ?_⟩
  have handed := call.handsOver_wentOn_round sink agree (head.fragNext_of_left call.fbSize left')
  rwa [next.sinkCall_eq, Nat.add_sub_cancel] at handed

/-- An accepted call with no payload left is followed by the completion. -/
theorem PendingCall.finished (sink : s.sink = 0 :: rest) (allSent : s₀.cmd.len.toNat ≤ i * (capacity s₀.cmd.aux).toNat)
    (agree : AgreeBelow B ((i + 1) * (capacity s₀.cmd.aux).toNat) s₀.inBuf) :
    HandsOver B s [] (deliverValue stOk s.work.cnt (wentOn { s with sink := rest })) := by
  have allSent' : (wentOn { s with sink := rest }).cmd.len.toNat ≤ (wentOn { s with sink := rest }).work.off.toNat := by
    rw [call.off_wentOn, show (wentOn { s with sink := rest }).cmd = s₀.cmd from call.cmd]
    omega
  exact call.handsOver_wentOn_round sink agree ((call.atLoopHead rest).fragNext_of_allSent allSent')

end

/-- `m` accepted calls after call `i` hand over fragments `i .. i + m - 1`, counted from 0. -/
theorem PendingCall.accepted_calls {s₀ s : State} {B : Buffer → Prop} {sk : List (BitVec 1)} {i m : Nat}
    (call : PendingCall s₀ i s) (sink : s.sink = List.replicate m 0 ++ sk)
    (le : i + m ≤ fragCount s₀.cmd.len.toNat s₀.cmd.aux.toNat)
    (agree : AgreeBelow B ((i + m) * (capacity s₀.cmd.aux).toNat) s₀.inBuf) :
    ∃ u, PendingCall s₀ (i + m) u ∧ u.sink = sk
      ∧ HandsOver B s ((List.range' i m).map (fragmentAt s₀.params s₀.cmd s₀.inBuf)) u := by
  induction m generalizing i s with
  | zero => exact ⟨s, call, sink, .done s⟩
  | succ m ih =>
    have mtu : 28 ≤ s₀.cmd.aux.toNat := call.cmd ▸ le_of_mtuMin_le call.mtu
    have left := (lt_fragCount_iff (len := s₀.cmd.len.toNat) mtu).1 (show i < _ by omega)
    have slice := agree.mono (Nat.mul_le_mul_right _ (show i + 1 ≤ i + (m + 1) by omega))
    obtain ⟨t, call', sink', first⟩ := call.next_call sink left slice
    rw [show i + (m + 1) = i + 1 + m by omega] at le agree ⊢
    obtain ⟨u, last, sink'', later⟩ := ih call' sink' le agree
    exact ⟨u, last, sink'', first.trans later⟩

/-! ### The launch -/

/-- An idle block is presented a FRAG whose launch is good and whose MTU passes the floor. -/
structure PresentsFrag (s : State) (o : Operands) (rest : List ReqStep) : Prop where
  phase : s.phase = .idle
  line : s.resetIn = false
  fbSize : 65532 ≤ s.fb.size
  input : o.len.toNat ≤ s.inBuf.size
  mtu : s.params.mtuMin ≤ o.aux.toNat
  req : s.req = .present (encode (.frag o)) :: rest

/-- The state in which the presented FRAG enters its loop. -/
def loopEntry (s : State) (o : Operands) (rest : List ReqStep) : State := fragStarted o { s with req := rest }

section
variable {s : State} {o : Operands} {rest : List ReqStep} {B : Buffer → Prop} (h : PresentsFrag s o rest)
include h

theorem PresentsFrag.step_eq : step s = fragNext (loopEntry s o rest) :=
  (stepRunsPresentedCommand s _ _ rest h.phase h.line h.req (decodeUndoesEncode _)).trans
    (execFrag_of_mtu_ge (s := { s with req := rest }) h.input h.mtu)

theorem PresentsFrag.with_inBuf {b : Buffer} (size : b.size = s.inBuf.size) :
    PresentsFrag { s with inBuf := b } o rest :=
  { h with input := le_of_le_of_eq h.input size.symm }

theorem PresentsFrag.running : FragRunning (loopEntry s o rest) := fragRunning_fragStarted h.input h.mtu

theorem PresentsFrag.inRun : InRun (loopEntry s o rest) (loopEntry s o rest) :=
  ⟨rfl, rfl, rfl, rfl, rfl, h.line, h.fbSize⟩

theorem PresentsFrag.handsOver_first_round {u : State} (agree : AgreeBelow B (capacity o.aux).toNat s.inBuf)
    (round : fragNext (loopEntry s o rest) = .next u) : HandsOver B s u.sinkCall.toList u := by
  have noCall : s.phase ≠ .sinkWait := by rw [h.phase]; nofun
  have same (b : Buffer) (hb : B b) : SameRound (loopEntry s o rest) { loopEntry s o rest with inBuf := b } := by
    refine AgreeBelow.sameRound (s := loopEntry s o rest) agree ?_ b hb
    exact le_trans (Nat.min_le_left _ _) (Nat.le_of_eq (Nat.zero_add _))
  exact handsOver_round noCall h.step_eq (fun b hb => (h.with_inBuf (agree b hb).1).step_eq) same round

/-- An empty payload completes at once (R139). -/
theorem PresentsFrag.empty (empty : o.len.toNat = 0) (agree : AgreeBelow B (capacity o.aux).toNat s.inBuf) :
    HandsOver B s [] (deliverValue stOk 0 (loopEntry s o rest)) :=
  h.handsOver_first_round agree (h.running.fragNext_of_allSent (Nat.le_of_eq empty))

theorem PresentsFrag.first_call (left : 0 < o.len.toNat) (agree : AgreeBelow B (capacity o.aux).toNat s.inBuf) :
    ∃ u, PendingCall (loopEntry s o rest) 1 u ∧ u.sink = s.sink
      ∧ HandsOver B s [fragmentAt s.params { o with op := 5 } s.inBuf 0] u := by
  have call : PendingCall (loopEntry s o rest) 1 (prepared (loopEntry s o rest)) :=
    h.running.pendingCall_prepared h.inRun (Nat.zero_mul _).symm left
  have handed := h.handsOver_first_round agree (h.running.fragNext_of_left h.fbSize left)
  rw [call.sinkCall_eq] at handed
  exact ⟨_, call, rfl, handed⟩

/-- With `k - 1` calls accepted, call `k` comes to be pending, and fragments 0 to `k - 1` have been handed over. -/
theorem PresentsFrag.calls {k : Nat} {sk : List (BitVec 1)} (pos : 1 ≤ k)
    (le : k ≤ fragCount o.len.toNat o.aux.toNat) (sink : s.sink = List.replicate (k - 1) 0 ++ sk)
    (agree : AgreeBelow B (k * (capacity o.aux).toNat) s.inBuf) :
    ∃ u, PendingCall (loopEntry s o rest) k u ∧ u.sink = sk
      ∧ HandsOver B s ((List.range k).map (fragmentAt s.params { o with op := 5 } s.inBuf)) u := by
  obtain ⟨m, rfl⟩ := Nat.exists_eq_add_of_le pos
  have left := (lt_fragCount_iff (len := o.len.toNat) (le_of_mtuMin_le h.mtu)).1 (show 0 < _ by omega)
  have slice := agree.mono (show (capacity o.aux).toNat ≤ _ from Nat.le_mul_of_pos_left _ (by omega))
  obtain ⟨t, call, sink', first⟩ := h.first_call (by omega) slice
  rw [sink, Nat.add_sub_cancel_left] at sink'
  obtain ⟨u, last, sink'', later⟩ := call.accepted_calls sink' le agree
  have range : List.range (1 + m) = 0 :: List.range' 1 m := by
    rw [List.range_eq_range', Nat.add_comm, List.range'_succ]
  exact ⟨u, last, sink'', range ▸ first.trans later⟩

theorem PresentsFrag.isFragment_of_get {k i : Nat} {f : List Byte} (le : k ≤ fragCount o.len.toNat o.aux.toNat)
    (get : ((List.range k).map (fragmentAt s.params { o with op := 5 } s.inBuf))[i]? = some f) :
    IsFragment s.params { o with op := 5 } s.inBuf i f := by
  obtain ⟨hi, rfl⟩ := List.getElem?_eq_some_iff.1 get
  rw [List.length_map, List.length_range] at hi
  have left := (lt_fragCount_iff (len := o.len.toNat) (le_of_mtuMin_le h.mtu)).1 (lt_of_lt_of_le hi le)
  rw [List.getElem_map, List.getElem_range]
  exact isFragment_fragmentAt s.params s.inBuf (le_of_mtuMin_le h.mtu) left

/-- The whole of a run whose calls are all accepted. -/
theorem PresentsFrag.all_accepted {sk : List (BitVec 1)}
    (sink : s.sink = List.replicate (fragCount o.len.toNat o.aux.toNat) 0 ++ sk) :
    ∃ t, Completed t stOk ∧ t.res.value.toNat = fragCount o.len.toNat o.aux.toNat ∧ t.sink = sk ∧ t.req = rest
      ∧ t.inBuf = s.inBuf ∧ t.outBuf = s.outBuf
      ∧ HandsOver (· = s.inBuf) s ((List.range (fragCount o.len.toNat o.aux.toNat)).map
          (fragmentAt s.params { o with op := 5 } s.inBuf)) t := by
  have mtu := le_of_mtuMin_le h.mtu
  rcases Nat.eq_zero_or_pos (fragCount o.len.toNat o.aux.toNat) with none | pos
  · have empty : ¬ 0 * (capacity o.aux).toNat < o.len.toNat := by rw [← lt_fragCount_iff mtu]; omega
    rw [none] at sink ⊢
    have path := h.empty (by omega) (agreeBelow_self _ _)
    exact ⟨deliverValue stOk 0 (loopEntry s o rest), completed_deliverValue _ _ _, rfl, sink, rfl, rfl, rfl, path⟩
  · have sink' : s.sink = List.replicate (fragCount o.len.toNat o.aux.toNat - 1) 0 ++ 0 :: sk := by
      rw [sink, List.append_cons, ← List.replicate_succ', Nat.sub_add_cancel pos]
    obtain ⟨u, call, last, handed⟩ := h.calls pos le_rfl sink' (agreeBelow_self _ _)
    have finished := handed.trans (call.finished last (le_fragCount_mul mtu o.len.toNat) (agreeBelow_self _ _))
    rw [List.append_nil] at finished
    exact ⟨deliverValue stOk u.work.cnt (wentOn { u with sink := sk }), completed_deliverValue _ _ _, call.cnt, rfl,
      call.req, call.inBuf, call.outBuf, finished⟩

end

theorem bytes_append_slice (b : Buffer) (off cap len : Nat) :
    b.bytes 0 (min off len) ++ b.bytes off (sliceLen cap off len) = b.bytes 0 (min (off + cap) len) := by
  rcases Nat.le_total off len with inside | past
  · have sum : min (off + cap) len = off + sliceLen cap off len := by unfold sliceLen; omega
    rw [Nat.min_eq_left inside, sum, Buffer.bytes_append, Nat.zero_add]
  · have none : sliceLen cap off len = 0 := by unfold sliceLen; omega
    rw [none, Nat.min_eq_right past, Nat.min_eq_right (Nat.le_add_right_of_le past)]
    exact List.append_nil _

/-- The slices of the first `k` fragments, joined (R128). -/
theorem flatten_sliceAt (c : Cmd) (b : Buffer) (k : Nat) :
    ((List.range k).map (sliceAt c b)).flatten = b.bytes 0 (min (k * (capacity c.aux).toNat) c.len.toNat) := by
  induction k with
  | zero => rw [Nat.zero_mul, Nat.zero_min]; rfl
  | succ k ih =>
    rw [List.range_succ, List.map_append, List.flatten_append, ih, List.map_singleton, List.flatten_singleton,
      sliceAt, bytes_append_slice, Nat.succ_mul]

theorem flatten_drop_fragmentAt (p : Config.Params) {c : Cmd} (b : Buffer) (mtu : 28 ≤ c.aux.toNat) :
    (((List.range (fragCount c.len.toNat c.aux.toNat)).map (fragmentAt p c b)).map fun f => f.drop 20).flatten
      = b.bytes 0 c.len.toNat := by
  have slices : (fun f => f.drop 20) ∘ fragmentAt p c b = sliceAt c b := funext (drop_fragmentAt p c b)
  rw [List.map_map, slices, flatten_sliceAt, Nat.min_eq_right (le_fragCount_mul mtu _)]

/-- Settles O44: the fragments handed over are `fragmentAt` of 0 up to the count, whose slices join to the payload. -/
theorem fragmentationIsCompleteAndFaithful : Obligations.FragmentationIsCompleteAndFaithful := by
  intro s o rest sk phase line fbSize input mtu req sink
  have launch : PresentsFrag s o rest := ⟨phase, line, fbSize, input, mtu, req⟩
  obtain ⟨t, ok, value, sink', req', input', output, path⟩ := launch.all_accepted sink
  obtain ⟨k, run, handed, -⟩ := path.exists_run
  refine ⟨k, t, run, ok, value, sink', req', input', output, ?_⟩
  rw [handed]
  exact ⟨by rw [List.length_map, List.length_range], fun i f => launch.isFragment_of_get le_rfl,
    flatten_drop_fragmentAt s.params s.inBuf (le_of_mtuMin_le mtu)⟩

/-- Settles O45: call `k` comes to be pending without a look beyond fragment `k`, and the answer 1 looks at nothing. -/
theorem refusedFragmentEndsTheRun : Obligations.RefusedFragmentEndsTheRun := by
  intro s o rest sk k phase line fbSize input mtu req pos le sink
  have launch : PresentsFrag s o rest := ⟨phase, line, fbSize, input, mtu, req⟩
  have cap : (capacity o.aux).toNat = 8 * ((o.aux.toNat - 20) / 8) :=
    capacity_toNat _ (le_trans (by decide) (le_of_mtuMin_le mtu))
  obtain ⟨u, call, last, path⟩ := launch.calls (B := SameBelow (k * (capacity o.aux).toNat) s.inBuf) pos le sink
    fun _ agrees => agrees
  obtain ⟨m, run, handed, runs⟩ := (path.trans (call.refused last)).exists_run
  rw [List.append_nil] at handed
  refine ⟨m, _, run, completed_deliverValue _ _ _, call.cnt, rfl, call.req, ?_⟩
  rw [handed]
  exact ⟨by rw [List.length_map, List.length_range], fun i f => launch.isFragment_of_get le,
    fun b size read => runs b ⟨size, cap ▸ read⟩⟩

end Sys2Proof.Machine
end
